-- ==== Sys2Proof/Word.lean ====
section
/-! DEFINITION. The fixed-width words of the block. The widths that stay open (the data registers' W and W+1 bits) are
no word types: such registers hold the integers the spec says they hold (R8, R9; notes/assumptions/2.md). -/

namespace Sys2Proof

/-- A command word: 32 bits, one length, one format (R80, R86). -/
abbrev Word := BitVec 32

/-- The plaintext unit: 8 bits (R7). -/
abbrev Byte := BitVec 8

/-- A ciphertext block: 32 bits, bit 31 its first character (R7, R66). -/
abbrev Block := BitVec 32

/-- A register index of the host port: 6 bits (R21, R61). -/
abbrev RegIndex := BitVec 6

end Sys2Proof
end

