-- ==== Sys2Proof/Machine/Arith.lean ====
section
/-! DEFINITION. The functions the units compute, over exact integers (R8, R12): the sieve (R101, R102), the Euclid
recursion (R111), modular exponentiation (R120, R124), the closed-form roots (R130) and the CRT combination (R132). -/

namespace Sys2Proof.Machine

/-- `bitlen` (R10): the k with 2^(k-1) <= v < 2^k; 0 for 0. -/
def bitlen (v : Nat) : Nat := if v = 0 then 0 else Nat.log2 v + 1

/-! ### The sieve -/

/-- The striking of the multiples i·i, i·i + i, … from cell `j` on (R101): every cell whose index is at least i·i and a
multiple of `i` becomes 0. -/
def strike (i : Nat) : Nat → List Bool → List Bool
  | _, [] => []
  | j, b :: bs => (b && !(decide (i * i ≤ j) && j % i == 0)) :: strike i (j + 1) bs

/-- The outer loop of the sieve (R101): from `i` on while i·i <= mx. `fuel` bounds the rounds. -/
def sieveLoop (mx : Nat) : Nat → Nat → List Bool → List Bool
  | 0, _, cells => cells
  | fuel + 1, i, cells =>
    if i * i ≤ mx then
      sieveLoop mx fuel (i + 1) (if cells.getD i false then strike i 0 cells else cells)
    else cells

/-- The cells before the loop (R101): all 1 but cells 0 and 1. -/
def sieveInit (mx : Nat) : List Bool := ((List.replicate (mx + 1) true).set 0 false).set 1 false

/-- The sieve over [0, mx] (R101): cell `i` of the result is `SV[i]`. PRESUMED steps, of which only the result is normative:
notes/assumptions/11.md. -/
def sieve (mx : Nat) : List Bool := sieveLoop mx mx 2 (sieveInit mx)

/-- The qualifying indices of the cells from `i` on, ascending: `mn` at least, cell 1, congruent to 3 mod 4. -/
def collect (mn : Nat) : Nat → List Bool → List Nat
  | _, [] => []
  | i, b :: bs => if b && decide (mn ≤ i) && i % 4 == 3 then i :: collect mn (i + 1) bs else collect mn (i + 1) bs

/-- `primes34` (R102), read off the sieve's cells. -/
def primes34 (mn mx : Nat) : List Nat := collect mn 0 (sieve mx)

/-! ### Extended Euclid -/

/-- A gcd with its Bezout coefficients (R111). -/
structure Bezout where
  g : Nat
  x : Int
  y : Int
deriving DecidableEq, Repr

/-- The recursion of R111; `fuel` bounds its depth. -/
def xgcdLoop : Nat → Nat → Nat → Bezout
  | 0, a, _ => ⟨a, 1, 0⟩
  | fuel + 1, a, b =>
    if b = 0 then ⟨a, 1, 0⟩
    else
      let t := xgcdLoop fuel b (a % b)
      ⟨t.g, t.y, t.x - (a / b : Nat) * t.y⟩

/-- `xgcd` (R111). The second argument falls strictly, so `b` rounds are enough (R79). -/
def xgcd (a b : Nat) : Bezout := xgcdLoop b a b

/-! ### Modular exponentiation -/

/-- The square-and-multiply loop (R124) over the bits `n - 1` down to 0 of the exponent, from the running result `r`. -/
def modexpLoop (b e m : Nat) : Nat → Nat → Nat
  | 0, r => r
  | n + 1, r =>
    modexpLoop b e m n (if e.testBit n then (r * r % m) * b % m else r * r % m)

/-- `modexp` (R120), computed as R124 does (DEDUCED to be equal: notes/assumptions/12.md). -/
def modexp (b e m : Nat) : Nat := modexpLoop b e m (bitlen e) (1 % m)

/-! ### Roots and the CRT combination -/

/-- `rootp` (R130): c^((p+1)/4) mod p. -/
def rootp (c p : Nat) : Nat := modexp c ((p + 1) / 4) p

/-- The four candidates, in the fixed order x, y, n-x, n-y (R132). -/
structure Candidates where
  v0 : Nat
  v1 : Nat
  v2 : Nat
  v3 : Nat
deriving DecidableEq, Repr

/-- The candidates as a list, in order. -/
def Candidates.toList (v : Candidates) : List Nat := [v.v0, v.v1, v.v2, v.v3]

/-- `crt4` (R132): exact over the integers, reduced once; the third and fourth are not reduced (R133). -/
def crt4 (p q : Nat) (a b : Int) (r s : Nat) : Candidates :=
  let n := p * q
  let x := ((a * p * s + b * q * r) % (n : Int)).toNat
  let y := ((a * p * s - b * q * r) % (n : Int)).toNat
  ⟨x, y, n - x, n - y⟩

end Sys2Proof.Machine
end

