-- ==== Sys2Proof/Config.lean ====
section
/-! DEFINITION. What an implementation fixes (the two OPEN parameters W and S, R5 and R6) and the free values: what the
spec calls unspecified (R222). A free value is an opaque constant; nothing about it can be proved. -/

namespace Sys2Proof.Config

/-- The two open parameters: `W`, the width of a data register (R5), and `S`, the number of cells of the sieve (R6).
Every statement about the machine holds for all of them: they stand in the state (notes/assumptions/1.md). -/
structure Params where
  W : Nat
  S : Nat
deriving DecidableEq, Repr

/-- The depth of the prime list, PLD = S/4 (R6). -/
def Params.PLD (p : Params) : Nat := p.S / 4

/-- The parameters of the machine that `State.reset` describes. DESIGN CHOICE: the spec leaves both open; 64 is the W of
its test vectors (95_test_vectors.md) and 65536 its suggested S (92_eei_decisions.md). Unsafe: notes/assumptions/1.md. -/
def defaultParams : Params := ⟨64, 65536⟩

/-- FREE VALUE: what the register of the given index holds after the `draw`-th draw, before it is cut to the
register's width (R47, R210, R222 (1)). Safe: notes/assumptions/4.md. -/
opaque freeReg (draw index : Nat) : Nat

/-- FREE VALUE: what `RDPL k` answers for a `k` at or above `PCOUNT` at the `draw`-th draw, before it is cut to
W bits (R48, R63, R222 (2)). DESIGN CHOICE of when it is drawn, safe: notes/assumptions/5.md. -/
opaque freePrime (draw k : Nat) : Nat

end Sys2Proof.Config
end

