-- ==== Sys2Proof/Syntax.lean ====
section
/-! DEFINITION. The nine commands of the opcode map (R82), and the fields of their one encoding format (R81). -/

namespace Sys2Proof

/-- A command. Operands are named registers that the command fixes (R85); the only value decoded beside the opcode is the
Boolean `k`, on the two commands that define it (R83). -/
inductive Instr where
  /-- `SIEVE`, and `SIEVE.K` for `k = true` (R100). -/
  | sieve (k : Bool)
  /-- `XGCD`, and `XGCD.K` for `k = true` (R110). -/
  | xgcd (k : Bool)
  /-- `KEYSET` (R115). -/
  | keyset
  /-- `MODSQR` (R121). -/
  | modsqr
  /-- `MODMUL` (R122). -/
  | modmul
  /-- `MODEXP` (R123). -/
  | modexp
  /-- `CRTSQRT` (R131). -/
  | crtsqrt
  /-- `BENC` (R150). -/
  | benc
  /-- `BDEC` (R160). -/
  | bdec
deriving DecidableEq, Repr

/-- The three fields of format `C` (R81): `ZERO` = bits 31:9, `K` = bit 8, `OPC` = bits 7:0. -/
structure Fields where
  zero : BitVec 23
  k : BitVec 1
  opc : BitVec 8
deriving DecidableEq, Repr

end Sys2Proof
end

