-- ==== Sys2Proof/WellFormed.lean ====
section
/-! DEFINITION. What is well formed: the fields of a command word (R81, R84) and the open parameters (R5, R6). Every term
of `Instr` is well formed, since no command has an operand (R85): the checks stand on the fields it is decoded from. -/

namespace Sys2Proof

/-- `ZERO` must be 0 (R81). -/
def Fields.zeroOk (f : Fields) : Bool := f.zero == 0#23

/-- `OPC` is one of the nine opcodes 0x01 to 0x09 (R82, R84). -/
def Fields.opcOk (f : Fields) : Bool := decide (0x01 ≤ f.opc.toNat) && decide (f.opc.toNat ≤ 0x09)

/-- `K` = 1 is allowed on the opcodes 0x01 and 0x02 only (R82, R83). -/
def Fields.kOk (f : Fields) : Bool := f.k == 0#1 || decide (f.opc.toNat ≤ 0x02)

/-- The fields of a legal command word: none of the three grounds of R84 holds. -/
def Fields.wf (f : Fields) : Bool := f.zeroOk && f.opcOk && f.kOk

/-- The `OPC` of a command (R82). -/
def Instr.opc : Instr → BitVec 8
  | .sieve _ => 0x01#8
  | .xgcd _ => 0x02#8
  | .keyset => 0x03#8
  | .modsqr => 0x04#8
  | .modmul => 0x05#8
  | .modexp => 0x06#8
  | .crtsqrt => 0x07#8
  | .benc => 0x08#8
  | .bdec => 0x09#8

/-- The `K` bit of a command: its flag where the command defines one, else 0 (R83). -/
def Instr.kBit : Instr → BitVec 1
  | .sieve k => BitVec.ofBool k
  | .xgcd k => BitVec.ofBool k
  | .keyset => 0#1
  | .modsqr => 0#1
  | .modmul => 0#1
  | .modexp => 0#1
  | .crtsqrt => 0#1
  | .benc => 0#1
  | .bdec => 0#1

/-- The fields a command is written with (R81). -/
def Instr.fields (i : Instr) : Fields := ⟨0#23, i.kBit, i.opc⟩

/-- A well-formed command: its fields are those of a legal word. -/
def Instr.wf (i : Instr) : Bool := i.fields.wf

namespace Config

/-- W >= 32 (R5). -/
def Params.widthOk (p : Params) : Bool := decide (32 ≤ p.W)

/-- S >= 4 (R6). -/
def Params.sieveOk (p : Params) : Bool := decide (4 ≤ p.S)

/-- S is a multiple of 4 (R6). -/
def Params.multipleOk (p : Params) : Bool := p.S % 4 == 0

/-- S <= 2^W (R6). -/
def Params.addressOk (p : Params) : Bool := decide (p.S ≤ 2 ^ p.W)

/-- The admissible parameters (R5, R6). -/
def Params.wf (p : Params) : Bool := p.widthOk && p.sieveOk && p.multipleOk && p.addressOk

end Config

end Sys2Proof
end

