-- ==== Sys2Proof/Decode.lean ====
section
/-! DEFINITION. Decoding and encoding of command words (R80 to R86, R91). The decoder is total on 32-bit words and
rejects by name; an illegal word is not a refusal of the model but raises fault `ILLEGAL_CMD` (R84; Machine/Port.lean). -/

namespace Sys2Proof

/-- Why a word is illegal: the three grounds of R84. -/
inductive Illegal where
  /-- `ZERO` is not 0. -/
  | zeroBits
  /-- `OPC` is 0x00 or 0x0A to 0xFF. -/
  | opcode
  /-- `K` = 1 and `OPC` is 0x03 to 0x09. -/
  | kBit
deriving DecidableEq, Repr

/-- The fields of a word (R81). -/
def fieldsOf (w : Word) : Fields :=
  { zero := w.extractLsb' 9 23, k := w.extractLsb' 8 1, opc := w.extractLsb' 0 8 }

/-- The word with the given fields (R81), bit 31 on the left. -/
def wordOf (f : Fields) : Word := f.zero ++ f.k ++ f.opc

/-- A command that defines no `K` bit: `K` = 1 makes its word illegal (R84, R91). -/
def withoutK (k : BitVec 1) (i : Instr) : Except Illegal Instr :=
  if k = 0#1 then .ok i else .error .kBit

/-- The decoder on fields whose `ZERO` is 0 (R91). -/
def decodeOpc (opc : BitVec 8) (k : BitVec 1) : Except Illegal Instr :=
  if opc = 0x01#8 then .ok (.sieve (k == 1#1))
  else if opc = 0x02#8 then .ok (.xgcd (k == 1#1))
  else if opc = 0x03#8 then withoutK k .keyset
  else if opc = 0x04#8 then withoutK k .modsqr
  else if opc = 0x05#8 then withoutK k .modmul
  else if opc = 0x06#8 then withoutK k .modexp
  else if opc = 0x07#8 then withoutK k .crtsqrt
  else if opc = 0x08#8 then withoutK k .benc
  else if opc = 0x09#8 then withoutK k .bdec
  else .error .opcode

/-- The decoder (R91), total on 32-bit words. -/
def decode (w : Word) : Except Illegal Instr :=
  let f := fieldsOf w
  if f.zero ≠ 0#23 then .error .zeroBits else decodeOpc f.opc f.k

/-- The encoder: the command word of a command (R81, R82). -/
def encode (i : Instr) : Word := wordOf i.fields

/-- A row of the opcode map (R82): a word `w` selects the row when `w AND mask = pattern`. -/
structure Row where
  mnemonic : String
  pattern : Word
  mask : Word
deriving DecidableEq, Repr

/-- The nine rows of R82, with their `match` and `mask`. -/
def opcodeMap : List Row :=
  [⟨"SIEVE", 0x00000001#32, 0xFFFFFEFF#32⟩, ⟨"XGCD", 0x00000002#32, 0xFFFFFEFF#32⟩,
   ⟨"KEYSET", 0x00000003#32, 0xFFFFFFFF#32⟩, ⟨"MODSQR", 0x00000004#32, 0xFFFFFFFF#32⟩,
   ⟨"MODMUL", 0x00000005#32, 0xFFFFFFFF#32⟩, ⟨"MODEXP", 0x00000006#32, 0xFFFFFFFF#32⟩,
   ⟨"CRTSQRT", 0x00000007#32, 0xFFFFFFFF#32⟩, ⟨"BENC", 0x00000008#32, 0xFFFFFFFF#32⟩,
   ⟨"BDEC", 0x00000009#32, 0xFFFFFFFF#32⟩]

/-- A word selects a row (R82). -/
def Row.selects (r : Row) (w : Word) : Bool := (w &&& r.mask) == r.pattern

/-- The mnemonic of a command (R82). -/
def Instr.mnemonic : Instr → String
  | .sieve _ => "SIEVE"
  | .xgcd _ => "XGCD"
  | .keyset => "KEYSET"
  | .modsqr => "MODSQR"
  | .modmul => "MODMUL"
  | .modexp => "MODEXP"
  | .crtsqrt => "CRTSQRT"
  | .benc => "BENC"
  | .bdec => "BDEC"

/-- The command the decoder reads from a word whose bits are `w`, numbered as the opcode table numbers them; every bit
at or above `nbits` is 0. A command word is moved whole and has no byte order (R65, R86), so its layout is the word. -/
def decodeTableWord (nbits w : Nat) : Option Instr :=
  match decode (BitVec.ofNat 32 (w % 2 ^ nbits)) with
  | .ok i => some i
  | .error _ => none

end Sys2Proof
end

