-- ==== Sys2Proof/Machine/State.lean ====
section
/-! DEFINITION. The state of the core (10_state.md R21, R48, R49), what the host presents to it and what it answers (R60,
R180), and the state after reset (R47, R57, R210). Plain data throughout. -/

namespace Sys2Proof.Machine

/-- A memory of cells addressed by number, as (index, value) pairs. Canonical form (`Memory.wf`): indices strictly rising.
An index that is not listed holds an unspecified value (R48, R49), so nothing listed equals it (DESIGN CHOICE, safe:
notes/assumptions/6.md). -/
abbrev Memory (α : Type) := List (Nat × α)

/-- A transaction of the host (R60). -/
inductive Transaction where
  /-- `WR i, v`: the value as a bit pattern of the register's width (R61). -/
  | wr (i : RegIndex) (v : Nat)
  /-- `RD i` (R62). -/
  | rd (i : RegIndex)
  /-- `RDPL k` (R63). -/
  | rdpl (k : Nat)
  /-- `ISSUE w` (R76). -/
  | issue (w : Word)
  /-- `RESET` (R77). -/
  | reset
deriving DecidableEq, Repr

/-- The nine faults (R181). Each is taken as R190 says and leaves a next state; none stops the machine. -/
inductive FaultCode where
  /-- The word is not one of the eleven legal words (R182). -/
  | ILLEGAL_CMD
  /-- Fewer than two qualifying primes, `SIEVE.K` (R183). -/
  | GEN_POOL
  /-- `K_P` or `K_Q` not congruent to 3 mod 4 (R184). -/
  | KEY_CONGRUENCE
  /-- The gcd is not 1 (R185). -/
  | KEY_NOT_COPRIME
  /-- The ciphertext value is 2^32 or more; cannot happen (R186). -/
  | BLOCK_OVERFLOW
  /-- The modulus register is 0 (R188). -/
  | MOD_ZERO
  /-- `K_P`·`K_Q` does not fit W bits (R187). -/
  | WIDTH
  /-- `SV_MAX` >= S (R189). -/
  | SIEVE_RANGE
  /-- Strict mode and no candidate gave a byte (R192). -/
  | DECODE_MISS
deriving DecidableEq, Repr

/-- The completion of an `ISSUE` (R180). -/
inductive Completion where
  /-- The command ran to its end. -/
  | done
  /-- The command raised the fault. -/
  | fault (code : FaultCode)
  /-- The core was FAULTED; the word was not decoded. -/
  | rejected
deriving DecidableEq, Repr

/-- What a transaction answers (R60). -/
inductive Answer where
  /-- `WR` and `RESET` answer nothing. -/
  | nothing
  /-- `RD` and `RDPL` answer a value, as the bit pattern of the cell's width (R62, R63). -/
  | value (v : Nat)
  /-- `ISSUE` answers a completion (R180). -/
  | completion (c : Completion)
deriving DecidableEq, Repr

/-- The registers of unit `modular_square_mult` (R22). -/
structure MsRegs where
  MS_A : Nat
  MS_B : Nat
  MS_E : Nat
  MS_M : Nat
  MS_R : Nat
deriving DecidableEq, Repr

/-- The registers of unit `bezout_xgcd` (R23); the coefficients are signed. -/
structure XgRegs where
  XG_A : Nat
  XG_B : Nat
  XG_G : Nat
  XG_X : Int
  XG_Y : Int
deriving DecidableEq, Repr

/-- The key context (R24); the coefficients are signed. -/
structure KeyRegs where
  K_P : Nat
  K_Q : Nat
  K_A : Int
  K_B : Int
deriving DecidableEq, Repr

/-- The registers of unit `crt_sqrtmod_engine` (R25). -/
structure CrRegs where
  CR_C : Nat
  CR_R : Nat
  CR_S : Nat
  CAND0 : Nat
  CAND1 : Nat
  CAND2 : Nat
  CAND3 : Nat
deriving DecidableEq, Repr

/-- The registers of unit `rabin_block_encrypt` (R26). -/
structure BeRegs where
  BE_BYTE : Byte
  BE_N : Nat
  BE_M : BitVec 16
  BE_BLK : Block
deriving DecidableEq, Repr

/-- The registers of unit `rabin_block_decrypt` (R27, R28). -/
structure BdRegs where
  BD_BLK : Block
  BD_BYTE : Byte
  BD_STAT : BitVec 5
deriving DecidableEq, Repr

/-- The registers of unit `prime_sieve_gen` (R29). -/
structure SvRegs where
  SV_MIN : Nat
  SV_MAX : Nat
  PCOUNT : Nat
deriving DecidableEq, Repr

/-- The control and status registers (R45, R46, R51, R52, R53). -/
structure CtlRegs where
  CTRL : BitVec 1
  PHOLD : Byte
  STATUS : BitVec 1
  FCODE : BitVec 4
  FCMD : Word
deriving DecidableEq, Repr

/-- The whole state. A W-bit or (W+1)-bit register is the integer it holds, in the range its width gives
(`State.Fits`, R9; notes/assumptions/2.md). -/
structure State where
  /-- MODEL's own: the open parameters W and S (R5, R6). No step changes them. -/
  par : Config.Params
  ms : MsRegs
  xg : XgRegs
  key : KeyRegs
  cr : CrRegs
  be : BeRegs
  bd : BdRegs
  sv : SvRegs
  ctl : CtlRegs
  /-- The prime list (R48): the entries that hold a specified value. -/
  PL : Memory Nat
  /-- The sieve scratch (R49): the cells the last `SIEVE` that completed `DONE` left (DESIGN CHOICE: notes/assumptions/7.md). -/
  SV : Memory Bool
  /-- MODEL's own: the transactions the host has presented, oldest first (R60, R70; DESIGN CHOICE: notes/assumptions/8.md). -/
  port : List Transaction
  /-- MODEL's own: what the last transaction answered (R60). -/
  answer : Answer
  /-- MODEL's own: how many unspecified values have been drawn (R222; DESIGN CHOICE: notes/assumptions/4.md). -/
  draws : Nat
deriving DecidableEq, Repr

/-- What stops the machine with a fault: nothing. Every fault of the spec is taken (R190) and leaves a next state, every
command terminates (R79) and no transaction hangs (R180), so this type has no constructor (DEDUCED:
notes/assumptions/14.md). -/
inductive Fault where
deriving DecidableEq, Repr

/-- What the model refuses. -/
inductive Refusal where
  /-- Raised by an arm of `exec` whose command has no meaning yet; no arm does. Safe. -/
  | notModelled (mnemonic : String)
  /-- Raised by the host port for a transaction it cannot express: a `WR` value outside its register's width (R61) or a
  `RDPL` index of 2^W or more (R60). Safe: the core never meets one. -/
  | inexpressible
deriving DecidableEq, Repr

/-- The core is FAULTED (R51, R191). -/
abbrev State.faulted (s : State) : Prop := s.ctl.STATUS = 1#1

/-- `CTRL.STRICT` = 1 (R45). -/
abbrev State.strict (s : State) : Prop := s.ctl.CTRL = 1#1

/-- The control registers after reset (R57); 0x3F is the code of '?' (R46). -/
def CtlRegs.reset : CtlRegs := { CTRL := 0#1, PHOLD := 0x3F#8, STATUS := 0#1, FCODE := 0#4, FCMD := 0#32 }

/-- The state after reset of a machine with parameters `p` (R57, R210). The data registers' values, here 0, are the model's
(DESIGN CHOICE, unsafe: notes/assumptions/3.md); the `RESET` transaction draws them freely (Machine/Ops.lean). -/
def State.resetWith (p : Config.Params) : State :=
  { par := p
    ms := { MS_A := 0, MS_B := 0, MS_E := 0, MS_M := 0, MS_R := 0 }
    xg := { XG_A := 0, XG_B := 0, XG_G := 0, XG_X := 0, XG_Y := 0 }
    key := { K_P := 0, K_Q := 0, K_A := 0, K_B := 0 }
    cr := { CR_C := 0, CR_R := 0, CR_S := 0, CAND0 := 0, CAND1 := 0, CAND2 := 0, CAND3 := 0 }
    be := { BE_BYTE := 0#8, BE_N := 0, BE_M := 0#16, BE_BLK := 0#32 }
    bd := { BD_BLK := 0#32, BD_BYTE := 0#8, BD_STAT := 0#5 }
    sv := { SV_MIN := 0, SV_MAX := 0, PCOUNT := 0 }
    ctl := CtlRegs.reset
    PL := []
    SV := []
    port := []
    answer := .nothing
    draws := 0 }

/-- The machine right after reset (R210). -/
def State.reset : State := State.resetWith Config.defaultParams

end Sys2Proof.Machine
end

