-- ==== Sys2Proof/Machine/Flags.lean ====
section
/-! DEFINITION. The status fields of `BD_STAT` (R28): the only status a command computes (R55). There is no carry, zero,
sign or overflow flag. -/

namespace Sys2Proof.Machine

/-- `BD_STAT` from its fields (R28): `SEL` bits 1:0, `HIT` bit 2, `RANGE` bit 3, `MISS` bit 4. -/
def packStat (sel : BitVec 2) (hit range miss : Bool) : BitVec 5 :=
  BitVec.ofBool miss ++ BitVec.ofBool range ++ BitVec.ofBool hit ++ sel

/-- `BD_STAT.SEL` (R28). -/
def statSel (v : BitVec 5) : BitVec 2 := v.extractLsb' 0 2

/-- `BD_STAT.HIT` (R28). -/
def statHit (v : BitVec 5) : Bool := v.getLsbD 2

/-- `BD_STAT.RANGE` (R28). -/
def statRange (v : BitVec 5) : Bool := v.getLsbD 3

/-- `BD_STAT.MISS` (R28). -/
def statMiss (v : BitVec 5) : Bool := v.getLsbD 4

end Sys2Proof.Machine
end

