-- ==== Sys2Proof/Machine/Operands.lean ====
section
/-! DEFINITION. The register map (R21): every register's index, width, sign and host access, and the one operation that
reads and the one that writes a register through the host port (R61, R62). Operands of a command are implicit (R85). -/

namespace Sys2Proof.Machine

/-- The 36 registers by name (R21). -/
inductive RegName where
  | MS_A | MS_B | MS_E | MS_M | MS_R
  | XG_A | XG_B | XG_G | XG_X | XG_Y
  | K_P | K_Q | K_A | K_B
  | CR_C | CR_R | CR_S | CAND0 | CAND1 | CAND2 | CAND3
  | BE_BYTE | BE_N | BE_M | BE_BLK
  | BD_BLK | BD_BYTE | BD_STAT
  | SV_MIN | SV_MAX | PCOUNT
  | CTRL | PHOLD | STATUS | FCODE | FCMD
deriving DecidableEq, Repr

/-- Every register, in the order of R21. -/
def RegName.all : List RegName :=
  [.MS_A, .MS_B, .MS_E, .MS_M, .MS_R, .XG_A, .XG_B, .XG_G, .XG_X, .XG_Y, .K_P, .K_Q, .K_A, .K_B,
   .CR_C, .CR_R, .CR_S, .CAND0, .CAND1, .CAND2, .CAND3, .BE_BYTE, .BE_N, .BE_M, .BE_BLK,
   .BD_BLK, .BD_BYTE, .BD_STAT, .SV_MIN, .SV_MAX, .PCOUNT, .CTRL, .PHOLD, .STATUS, .FCODE, .FCMD]

/-- The index of a register (R21). -/
def RegName.index : RegName → RegIndex
  | .MS_A => 0x00#6 | .MS_B => 0x01#6 | .MS_E => 0x02#6 | .MS_M => 0x03#6 | .MS_R => 0x04#6
  | .XG_A => 0x08#6 | .XG_B => 0x09#6 | .XG_G => 0x0A#6 | .XG_X => 0x0B#6 | .XG_Y => 0x0C#6
  | .K_P => 0x10#6 | .K_Q => 0x11#6 | .K_A => 0x12#6 | .K_B => 0x13#6
  | .CR_C => 0x18#6 | .CR_R => 0x19#6 | .CR_S => 0x1A#6
  | .CAND0 => 0x1B#6 | .CAND1 => 0x1C#6 | .CAND2 => 0x1D#6 | .CAND3 => 0x1E#6
  | .BE_BYTE => 0x20#6 | .BE_N => 0x21#6 | .BE_M => 0x22#6 | .BE_BLK => 0x23#6
  | .BD_BLK => 0x28#6 | .BD_BYTE => 0x29#6 | .BD_STAT => 0x2A#6
  | .SV_MIN => 0x30#6 | .SV_MAX => 0x31#6 | .PCOUNT => 0x32#6
  | .CTRL => 0x38#6 | .PHOLD => 0x39#6 | .STATUS => 0x3A#6 | .FCODE => 0x3B#6 | .FCMD => 0x3C#6

/-- The register at an index; none where the index is unmapped (R21, R54). -/
def regAt (i : RegIndex) : Option RegName := RegName.all.find? (fun r => r.index == i)

/-- The width of a register in bits (R21). -/
def RegName.width (p : Config.Params) : RegName → Nat
  | .MS_A => p.W | .MS_B => p.W | .MS_E => p.W | .MS_M => p.W | .MS_R => p.W
  | .XG_A => p.W | .XG_B => p.W | .XG_G => p.W | .XG_X => p.W + 1 | .XG_Y => p.W + 1
  | .K_P => p.W | .K_Q => p.W | .K_A => p.W + 1 | .K_B => p.W + 1
  | .CR_C => p.W | .CR_R => p.W | .CR_S => p.W
  | .CAND0 => p.W | .CAND1 => p.W | .CAND2 => p.W | .CAND3 => p.W
  | .BE_BYTE => 8 | .BE_N => p.W | .BE_M => 16 | .BE_BLK => 32
  | .BD_BLK => 32 | .BD_BYTE => 8 | .BD_STAT => 5
  | .SV_MIN => p.W | .SV_MAX => p.W | .PCOUNT => p.W
  | .CTRL => 1 | .PHOLD => 8 | .STATUS => 1 | .FCODE => 4 | .FCMD => 32

/-- The signed registers: the four Bezout coefficients (R21, R23, R24). -/
def RegName.signed : RegName → Bool
  | .XG_X => true | .XG_Y => true | .K_A => true | .K_B => true
  | .MS_A => false | .MS_B => false | .MS_E => false | .MS_M => false | .MS_R => false
  | .XG_A => false | .XG_B => false | .XG_G => false | .K_P => false | .K_Q => false
  | .CR_C => false | .CR_R => false | .CR_S => false
  | .CAND0 => false | .CAND1 => false | .CAND2 => false | .CAND3 => false
  | .BE_BYTE => false | .BE_N => false | .BE_M => false | .BE_BLK => false
  | .BD_BLK => false | .BD_BYTE => false | .BD_STAT => false
  | .SV_MIN => false | .SV_MAX => false | .PCOUNT => false
  | .CTRL => false | .PHOLD => false | .STATUS => false | .FCODE => false | .FCMD => false

/-- Host access: true for `RW`, false for `RO` (R20, R21). -/
def RegName.writable : RegName → Bool
  | .MS_A => true | .MS_B => true | .MS_E => true | .MS_M => true | .MS_R => false
  | .XG_A => true | .XG_B => true | .XG_G => false | .XG_X => false | .XG_Y => false
  | .K_P => true | .K_Q => true | .K_A => true | .K_B => true
  | .CR_C => true | .CR_R => false | .CR_S => false
  | .CAND0 => false | .CAND1 => false | .CAND2 => false | .CAND3 => false
  | .BE_BYTE => true | .BE_N => true | .BE_M => false | .BE_BLK => false
  | .BD_BLK => true | .BD_BYTE => false | .BD_STAT => false
  | .SV_MIN => true | .SV_MAX => true | .PCOUNT => false
  | .CTRL => true | .PHOLD => true | .STATUS => false | .FCODE => false | .FCMD => false

/-- The N-bit pattern of an integer: `v mod 2^N`, two's complement for a negative one (R9). -/
def bitPattern (n : Nat) (v : Int) : Nat := (v % (2 ^ n : Nat)).toNat

/-- The integer an N-bit two's-complement pattern denotes (R9). -/
def signedOf (n : Nat) (v : Nat) : Int := if v < 2 ^ (n - 1) then (v : Int) else (v : Int) - (2 ^ n : Nat)

/-- The integer a register holds (R8, R9). -/
def State.regValue (s : State) : RegName → Int
  | .MS_A => s.ms.MS_A | .MS_B => s.ms.MS_B | .MS_E => s.ms.MS_E | .MS_M => s.ms.MS_M | .MS_R => s.ms.MS_R
  | .XG_A => s.xg.XG_A | .XG_B => s.xg.XG_B | .XG_G => s.xg.XG_G | .XG_X => s.xg.XG_X | .XG_Y => s.xg.XG_Y
  | .K_P => s.key.K_P | .K_Q => s.key.K_Q | .K_A => s.key.K_A | .K_B => s.key.K_B
  | .CR_C => s.cr.CR_C | .CR_R => s.cr.CR_R | .CR_S => s.cr.CR_S
  | .CAND0 => s.cr.CAND0 | .CAND1 => s.cr.CAND1 | .CAND2 => s.cr.CAND2 | .CAND3 => s.cr.CAND3
  | .BE_BYTE => s.be.BE_BYTE.toNat | .BE_N => s.be.BE_N | .BE_M => s.be.BE_M.toNat | .BE_BLK => s.be.BE_BLK.toNat
  | .BD_BLK => s.bd.BD_BLK.toNat | .BD_BYTE => s.bd.BD_BYTE.toNat | .BD_STAT => s.bd.BD_STAT.toNat
  | .SV_MIN => s.sv.SV_MIN | .SV_MAX => s.sv.SV_MAX | .PCOUNT => s.sv.PCOUNT
  | .CTRL => s.ctl.CTRL.toNat | .PHOLD => s.ctl.PHOLD.toNat | .STATUS => s.ctl.STATUS.toNat
  | .FCODE => s.ctl.FCODE.toNat | .FCMD => s.ctl.FCMD.toNat

/-- The bit pattern of a register, of its own width: what `RD` answers (R62). -/
def State.readReg (s : State) (r : RegName) : Nat := bitPattern (r.width s.par) (s.regValue r)

/-- The host's write of the pattern `v` to a register (R61): an `RW` register takes the value, an `RO` register none (R54). -/
def State.writeReg (s : State) (r : RegName) (v : Nat) : State :=
  match r with
  | .MS_A => { s with ms := { s.ms with MS_A := v } }
  | .MS_B => { s with ms := { s.ms with MS_B := v } }
  | .MS_E => { s with ms := { s.ms with MS_E := v } }
  | .MS_M => { s with ms := { s.ms with MS_M := v } }
  | .XG_A => { s with xg := { s.xg with XG_A := v } }
  | .XG_B => { s with xg := { s.xg with XG_B := v } }
  | .K_P => { s with key := { s.key with K_P := v } }
  | .K_Q => { s with key := { s.key with K_Q := v } }
  | .K_A => { s with key := { s.key with K_A := signedOf (RegName.width s.par .K_A) v } }
  | .K_B => { s with key := { s.key with K_B := signedOf (RegName.width s.par .K_B) v } }
  | .CR_C => { s with cr := { s.cr with CR_C := v } }
  | .BE_BYTE => { s with be := { s.be with BE_BYTE := BitVec.ofNat 8 v } }
  | .BE_N => { s with be := { s.be with BE_N := v } }
  | .BD_BLK => { s with bd := { s.bd with BD_BLK := BitVec.ofNat 32 v } }
  | .SV_MIN => { s with sv := { s.sv with SV_MIN := v } }
  | .SV_MAX => { s with sv := { s.sv with SV_MAX := v } }
  | .CTRL => { s with ctl := { s.ctl with CTRL := BitVec.ofNat 1 v } }
  | .PHOLD => { s with ctl := { s.ctl with PHOLD := BitVec.ofNat 8 v } }
  | .MS_R => s
  | .XG_G => s
  | .XG_X => s
  | .XG_Y => s
  | .CR_R => s
  | .CR_S => s
  | .CAND0 => s
  | .CAND1 => s
  | .CAND2 => s
  | .CAND3 => s
  | .BE_M => s
  | .BE_BLK => s
  | .BD_BYTE => s
  | .BD_STAT => s
  | .PCOUNT => s
  | .STATUS => s
  | .FCODE => s
  | .FCMD => s

/-- What the host port can express: a `WR` carries exactly the register's width (R61), a `RDPL` an index below 2^W (R63). -/
def Transaction.expressible (p : Config.Params) : Transaction → Bool
  | .wr i v =>
    match regAt i with
    | some r => decide (v < 2 ^ r.width p)
    | none => true
  | .rd _ => true
  | .rdpl k => decide (k < 2 ^ p.W)
  | .issue _ => true
  | .reset => true

end Sys2Proof.Machine
end

