-- ==== Sys2Proof/Machine/Ops.lean ====
section
/-! DEFINITION. The named operations: the prime list and the scratch, writing a command's results, the three ways an
`ISSUE` ends (R180), fault entry (R190) and its only exit, `RESET` (R77, R195), and the host's reads and writes. -/

namespace Sys2Proof.Machine

/-- The value of cell `k`; none where it holds an unspecified value (R48, R49). -/
def Memory.read {α : Type} : Memory α → Nat → Option α
  | [], _ => none
  | (i, v) :: rest, k => if i = k then some v else Memory.read rest k

/-- The cells `base`, `base + 1`, … with the given values. -/
def Memory.loadFrom {α : Type} (base : Nat) : List α → Memory α
  | [] => []
  | v :: vs => (base, v) :: Memory.loadFrom (base + 1) vs

/-- Cells 0, 1, … take the given values and every other cell becomes unspecified: how `SIEVE` writes (R100, R48). -/
def Memory.load {α : Type} (vs : List α) : Memory α := Memory.loadFrom 0 vs

/-- Canonical form: the indices rise strictly. -/
def Memory.wf {α : Type} : Memory α → Bool
  | [] => true
  | [_] => true
  | (i, _) :: (j, w) :: rest => decide (i < j) && Memory.wf ((j, w) :: rest)

/-- The state with the answer of the transaction (R60). -/
def State.answering (s : State) (a : Answer) : State := { s with answer := a }

/-- The state with other transactions presented (R60). -/
def State.withPort (s : State) (p : List Transaction) : State := { s with port := p }

/-- The state after a value was drawn (R222). -/
def State.drawn (s : State) : State := { s with draws := s.draws + 1 }

/-- Writes `MS_R` (R22). -/
def State.setMsR (s : State) (v : Nat) : State := { s with ms := { s.ms with MS_R := v } }

/-- Writes `XG_G`, `XG_X`, `XG_Y` (R23). -/
def State.setXg (s : State) (g : Nat) (x y : Int) : State :=
  { s with xg := { s.xg with XG_G := g, XG_X := x, XG_Y := y } }

/-- Writes `K_A`, `K_B` (R24). -/
def State.setBezout (s : State) (a b : Int) : State := { s with key := { s.key with K_A := a, K_B := b } }

/-- Writes `CR_R`, `CR_S`, `CAND0..3` (R25). -/
def State.setRoots (s : State) (r t v0 v1 v2 v3 : Nat) : State :=
  { s with cr := { s.cr with CR_R := r, CR_S := t, CAND0 := v0, CAND1 := v1, CAND2 := v2, CAND3 := v3 } }

/-- Writes `CR_C` (R25). -/
def State.setCrC (s : State) (c : Nat) : State := { s with cr := { s.cr with CR_C := c } }

/-- Writes `BE_M`, `BE_BLK` (R26). -/
def State.setBlock (s : State) (m : BitVec 16) (c : Block) : State :=
  { s with be := { s.be with BE_M := m, BE_BLK := c } }

/-- Writes `BD_BYTE`, `BD_STAT` (R27, R28). -/
def State.setByte (s : State) (b : Byte) (stat : BitVec 5) : State :=
  { s with bd := { s.bd with BD_BYTE := b, BD_STAT := stat } }

/-- Writes `PL` and `PCOUNT`, and leaves the scratch as the sieve left it (R29, R48, R49). -/
def State.setPrimes (s : State) (primes : List Nat) (cells : List Bool) : State :=
  { s with sv := { s.sv with PCOUNT := primes.length }, PL := Memory.load primes, SV := Memory.load cells }

/-- The code of a fault (R181). -/
def FaultCode.code : FaultCode → BitVec 4
  | .ILLEGAL_CMD => 1#4
  | .GEN_POOL => 2#4
  | .KEY_CONGRUENCE => 3#4
  | .KEY_NOT_COPRIME => 4#4
  | .BLOCK_OVERFLOW => 5#4
  | .MOD_ZERO => 6#4
  | .WIDTH => 7#4
  | .SIEVE_RANGE => 8#4
  | .DECODE_MISS => 9#4

/-- The fault latch set by fault `c` of the command word `w` (R190). -/
def State.latch (s : State) (c : FaultCode) (w : Word) : State :=
  { s with ctl := { s.ctl with STATUS := 1#1, FCODE := c.code, FCMD := w } }

/-- FAULT ENTRY (R190): the latch is set and nothing else changes; the `ISSUE` answers `FAULT(code)`. -/
def faultEntry (c : FaultCode) (w : Word) (s : State) : State := (s.latch c w).answering (.completion (.fault c))

/-- The `ISSUE` of a FAULTED core (R191): nothing changes; it answers `REJECTED`. -/
def reject (s : State) : State := s.answering (.completion .rejected)

/-- The end of a command that raised no fault: it answers `DONE` (R180). -/
def finish (s : State) : State := s.answering (.completion .done)

/-- How a command ends, in the order of R193: `REJECTED` before everything; then the first fault its tests raise, with
nothing of it written (R11, R190); else its results and `DONE`. `r` is what the command's rule computes from the state
as it was at the issue: a fault, or the state with the results written. DEDUCED: the latch takes `encode i`, which is the
word issued (notes/assumptions/10.md), and a command tests `STATUS.FAULT` itself (notes/assumptions/14.md). -/
def complete (i : Instr) (s : State) (r : Except FaultCode State) : Host.Outcome State Fault Refusal :=
  if s.faulted then .next (reject s)
  else
    match r with
    | .error c => .next (faultEntry c (encode i) s)
    | .ok t => .next (finish t)

/-- The free value an unsigned register takes at `RESET`, of the register's width (R47, R210). -/
def State.freeUnsigned (s : State) (r : RegName) : Nat :=
  Config.freeReg s.draws r.index.toNat % 2 ^ r.width s.par

/-- The free value a signed register takes at `RESET` (R47, R210). -/
def State.freeSigned (s : State) (r : RegName) : Int := signedOf (r.width s.par) (s.freeUnsigned r)

/-- `RESET`, the only exit from FAULTED (R77, R195, R210): the control registers take their reset values (R57), every
data register a free value of its width (R47), and the prime list and the scratch hold nothing specified (R48, R49). -/
def doReset (s : State) : State :=
  { par := s.par
    ms := { MS_A := s.freeUnsigned .MS_A, MS_B := s.freeUnsigned .MS_B, MS_E := s.freeUnsigned .MS_E,
            MS_M := s.freeUnsigned .MS_M, MS_R := s.freeUnsigned .MS_R }
    xg := { XG_A := s.freeUnsigned .XG_A, XG_B := s.freeUnsigned .XG_B, XG_G := s.freeUnsigned .XG_G,
            XG_X := s.freeSigned .XG_X, XG_Y := s.freeSigned .XG_Y }
    key := { K_P := s.freeUnsigned .K_P, K_Q := s.freeUnsigned .K_Q,
             K_A := s.freeSigned .K_A, K_B := s.freeSigned .K_B }
    cr := { CR_C := s.freeUnsigned .CR_C, CR_R := s.freeUnsigned .CR_R, CR_S := s.freeUnsigned .CR_S,
            CAND0 := s.freeUnsigned .CAND0, CAND1 := s.freeUnsigned .CAND1,
            CAND2 := s.freeUnsigned .CAND2, CAND3 := s.freeUnsigned .CAND3 }
    be := { BE_BYTE := BitVec.ofNat 8 (s.freeUnsigned .BE_BYTE), BE_N := s.freeUnsigned .BE_N,
            BE_M := BitVec.ofNat 16 (s.freeUnsigned .BE_M), BE_BLK := BitVec.ofNat 32 (s.freeUnsigned .BE_BLK) }
    bd := { BD_BLK := BitVec.ofNat 32 (s.freeUnsigned .BD_BLK),
            BD_BYTE := BitVec.ofNat 8 (s.freeUnsigned .BD_BYTE), BD_STAT := 0#5 }
    sv := { SV_MIN := s.freeUnsigned .SV_MIN, SV_MAX := s.freeUnsigned .SV_MAX, PCOUNT := 0 }
    ctl := CtlRegs.reset
    PL := []
    SV := []
    port := s.port
    answer := .nothing
    draws := s.draws + 1 }

/-- `WR i, v` (R61): no effect while FAULTED (R191), on an unmapped index or on an `RO` register (R54). -/
def doWr (i : RegIndex) (v : Nat) (s : State) : State :=
  if s.faulted then s.answering .nothing
  else
    match regAt i with
    | some r => (s.writeReg r v).answering .nothing
    | none => s.answering .nothing

/-- `RD i` (R62): the register's pattern, 0 for an unmapped index (R54); nothing changes, FAULTED or not. -/
def doRd (i : RegIndex) (s : State) : State :=
  match regAt i with
  | some r => s.answering (.value (s.readReg r))
  | none => s.answering (.value 0)

/-- The free value that `RDPL k` answers, of W bits (R63, R48). -/
def State.freeEntry (s : State) (k : Nat) : Nat := Config.freePrime s.draws k % 2 ^ s.par.W

/-- `RDPL k` (R63): entry `k` where it is below `PCOUNT`, else a free value drawn now; no register, list entry or latch
changes (the draw is counted in the model's own field). -/
def doRdpl (k : Nat) (s : State) : State :=
  match (if k < s.sv.PCOUNT then s.PL.read k else none) with
  | some v => s.answering (.value v)
  | none => s.drawn.answering (.value (s.freeEntry k))

end Sys2Proof.Machine
end

