-- ==== Sys2Proof/Machine/BezoutUnit.lean ====
section
/-! DEFINITION. Unit bezout_xgcd (41_bezout_xgcd.md): the commands `XGCD` and `KEYSET`. -/

namespace Sys2Proof.Machine

/-- The rule of `XGCD` (R110): for `K` = 1, `KEY_NOT_COPRIME` where the gcd is not 1. -/
def xgcdRule (k : Bool) (s : State) : Except FaultCode State :=
  let t := xgcd s.xg.XG_A s.xg.XG_B
  if k = true ∧ t.g ≠ 1 then .error .KEY_NOT_COPRIME else .ok (s.setXg t.g t.x t.y)

/-- `XGCD`, `XGCD.K` (R110). -/
def execXgcd (k : Bool) (s : State) : Host.Outcome State Fault Refusal := complete (.xgcd k) s (xgcdRule k s)

/-- The congruence test of the key primes (R115, R131, R160): both are 3 mod 4. -/
abbrev State.keyCongruent (s : State) : Prop := s.key.K_P % 4 = 3 ∧ s.key.K_Q % 4 = 3

/-- The rule of `KEYSET` (R115): `KEY_CONGRUENCE`, then `KEY_NOT_COPRIME`, then the coefficients. -/
def keysetRule (s : State) : Except FaultCode State :=
  if ¬ s.keyCongruent then .error .KEY_CONGRUENCE
  else
    let t := xgcd s.key.K_P s.key.K_Q
    if t.g ≠ 1 then .error .KEY_NOT_COPRIME else .ok (s.setBezout t.x t.y)

/-- `KEYSET` (R115). -/
def execKeyset (s : State) : Host.Outcome State Fault Refusal := complete .keyset s (keysetRule s)

end Sys2Proof.Machine
end

