-- ==== Sys2Proof/Machine/Codec.lean ====
section
/-! DEFINITION. The redundancy codec (44_redundancy_codec.md): binary strings (R10), `REncode` (R141), `RDecode` (R143),
and the first-match selection over the four candidates (R161). Neither has state or a fault (R140). -/

namespace Sys2Proof.Machine

/-- The bits `n - 1` down to 0 of `v`, most significant first. -/
def bitsFrom (v : Nat) : Nat → List Bool
  | 0 => []
  | n + 1 => v.testBit n :: bitsFrom v n

/-- `binstr` (R10): the minimal binary string, most significant character first; "0" for 0. -/
def binstr (v : Nat) : List Bool := if v = 0 then [false] else bitsFrom v (bitlen v)

/-- `nbits` (R10): the length of `binstr v`, max(1, bitlen(v)). -/
def nbits (v : Nat) : Nat := max 1 (bitlen v)

/-- `intval` (R10): the integer a binary string spells, most significant character first. -/
def intval (s : List Bool) : Nat := s.foldl (fun acc c => 2 * acc + c.toNat) 0

/-- `REncode` (R141). -/
def REncode (b : Nat) : Nat := if b = 0 then 0 else b * 2 ^ bitlen b + b

/-- `RDecode` (R143): `none` is `Reject`, `some h` is `Accept(h)`. -/
def RDecode (v : Nat) : Option Nat :=
  let n2 := nbits v
  if n2 < 2 then none
  else if n2 % 2 = 1 then none
  else
    let k := n2 / 2
    let hi := v / 2 ^ k
    let lo := v % 2 ^ k
    if hi ≠ lo then none else some hi

/-- The outcome of the selection (R161): `hit` and `range` carry the index and the half of the candidate taken. -/
inductive Selection where
  | hit (sel h : Nat)
  | range (sel h : Nat)
  | miss
deriving DecidableEq, Repr

/-- The first candidate that decodes, from index `i` on (R161). -/
def selectFrom : Nat → List Nat → Selection
  | _, [] => .miss
  | i, v :: vs =>
    match RDecode v with
    | some h => if h ≤ 255 then .hit i h else .range i h
    | none => selectFrom (i + 1) vs

/-- `select4` (R161). -/
def select4 (v : Candidates) : Selection := selectFrom 0 v.toList

/-- A selection that gives a byte (R161). -/
def Selection.isHit : Selection → Bool
  | .hit _ _ => true
  | .range _ _ => false
  | .miss => false

/-- The byte a selection gives, with the placeholder where it gives none (R160). -/
def Selection.byte (placeholder : Byte) : Selection → Byte
  | .hit _ h => BitVec.ofNat 8 h
  | .range _ _ => placeholder
  | .miss => placeholder

/-- `BD_STAT` of a selection (R28, R160). -/
def Selection.stat : Selection → BitVec 5
  | .hit i _ => packStat (BitVec.ofNat 2 i) true false false
  | .range i _ => packStat (BitVec.ofNat 2 i) false true false
  | .miss => packStat 0#2 false false true

end Sys2Proof.Machine
end

