-- ==== Sys2Proof/Machine/CrtSqrt.lean ====
section
/-! DEFINITION. Unit crt_sqrtmod_engine (43_crt_sqrtmod_engine.md): the command `CRTSQRT`, and the computation that `BDEC`
shares with it. -/

namespace Sys2Proof.Machine

/-- The tests `CRTSQRT` and `BDEC` begin with (R131, R160, R193): `KEY_CONGRUENCE`, then `WIDTH`. -/
def keyTests (s : State) : Except FaultCode Unit :=
  if ¬ s.keyCongruent then .error .KEY_CONGRUENCE
  else if 2 ^ s.par.W ≤ s.key.K_P * s.key.K_Q then .error .WIDTH
  else .ok ()

/-- The root of `c` modulo `K_P` (R130). -/
def State.rootR (s : State) (c : Nat) : Nat := rootp c s.key.K_P

/-- The root of `c` modulo `K_Q` (R130). -/
def State.rootS (s : State) (c : Nat) : Nat := rootp c s.key.K_Q

/-- The four candidates of `c` under the key context (R132). -/
def State.candidates (s : State) (c : Nat) : Candidates :=
  crt4 s.key.K_P s.key.K_Q s.key.K_A s.key.K_B (s.rootR c) (s.rootS c)

/-- The state with the roots and candidates of `c` written (R131, R160). -/
def State.withCandidates (s : State) (c : Nat) : State :=
  let v := s.candidates c
  s.setRoots (s.rootR c) (s.rootS c) v.v0 v.v1 v.v2 v.v3

/-- The rule of `CRTSQRT` (R131). -/
def crtsqrtRule (s : State) : Except FaultCode State :=
  match keyTests s with
  | .error c => .error c
  | .ok _ => .ok (s.withCandidates s.cr.CR_C)

/-- `CRTSQRT` (R131). -/
def execCrtsqrt (s : State) : Host.Outcome State Fault Refusal := complete .crtsqrt s (crtsqrtRule s)

end Sys2Proof.Machine
end

