-- ==== Sys2Proof/Machine/BlockDecrypt.lean ====
section
/-! DEFINITION. Unit rabin_block_decrypt (46_rabin_block_decrypt.md): the command `BDEC`. -/

namespace Sys2Proof.Machine

/-- The rule of `BDEC` (R160): the tests of the key, then in strict mode `DECODE_MISS` where no byte is found (R164,
R192), then `CR_C`, the roots and candidates, the byte and its status. -/
def bdecRule (s : State) : Except FaultCode State :=
  match keyTests s with
  | .error c => .error c
  | .ok _ =>
    let c := s.bd.BD_BLK.toNat
    let sel := select4 (s.candidates c)
    if sel.isHit = false ∧ s.strict then .error .DECODE_MISS
    else .ok (((s.withCandidates c).setCrC c).setByte (sel.byte s.ctl.PHOLD) sel.stat)

/-- `BDEC` (R160). -/
def execBdec (s : State) : Host.Outcome State Fault Refusal := complete .bdec s (bdecRule s)

end Sys2Proof.Machine
end

