-- ==== Sys2Proof/Machine/BlockEncrypt.lean ====
section
/-! DEFINITION. Unit rabin_block_encrypt (45_rabin_block_encrypt.md): the command `BENC`. -/

namespace Sys2Proof.Machine

/-- The rule of `BENC` (R150): `MOD_ZERO`, then `BLOCK_OVERFLOW`, which the spec keeps although it cannot happen (R152,
90_conflicts.md C3), then the encoding and the block. -/
def bencRule (s : State) : Except FaultCode State :=
  let n := s.be.BE_N
  if n = 0 then .error .MOD_ZERO
  else
    let m := REncode s.be.BE_BYTE.toNat
    let c := m * m % n
    if 2 ^ 32 ≤ c then .error .BLOCK_OVERFLOW
    else .ok (s.setBlock (BitVec.ofNat 16 m) (BitVec.ofNat 32 c))

/-- `BENC` (R150). -/
def execBenc (s : State) : Host.Outcome State Fault Refusal := complete .benc s (bencRule s)

end Sys2Proof.Machine
end

