-- ==== Sys2Proof/Machine/ModUnit.lean ====
section
/-! DEFINITION. Unit modular_square_mult (42_modular_square_mult.md): the commands `MODSQR`, `MODMUL`, `MODEXP`. -/

namespace Sys2Proof.Machine

/-- The shape of the three commands (R121, R122, R123): `MOD_ZERO` for a zero modulus (R188), else `MS_R` takes `v`. -/
def modRule (v : Nat) (s : State) : Except FaultCode State :=
  if s.ms.MS_M = 0 then .error .MOD_ZERO else .ok (s.setMsR v)

/-- `MODSQR` (R121): the product is exact (R12). -/
def execModsqr (s : State) : Host.Outcome State Fault Refusal :=
  complete .modsqr s (modRule (s.ms.MS_A * s.ms.MS_A % s.ms.MS_M) s)

/-- `MODMUL` (R122). -/
def execModmul (s : State) : Host.Outcome State Fault Refusal :=
  complete .modmul s (modRule (s.ms.MS_A * s.ms.MS_B % s.ms.MS_M) s)

/-- `MODEXP` (R123). -/
def execModexp (s : State) : Host.Outcome State Fault Refusal :=
  complete .modexp s (modRule (modexp s.ms.MS_A s.ms.MS_E s.ms.MS_M) s)

end Sys2Proof.Machine
end

