-- ==== Sys2Proof/Machine/PrimeSieve.lean ====
section
/-! DEFINITION. Unit prime_sieve_gen (40_prime_sieve_gen.md): the command `SIEVE`. -/

namespace Sys2Proof.Machine

/-- The rule of `SIEVE` (R100): `SIEVE_RANGE`, then for `K` = 1 `GEN_POOL`, then the list and its count. -/
def sieveRule (k : Bool) (s : State) : Except FaultCode State :=
  let mn := s.sv.SV_MIN
  let mx := s.sv.SV_MAX
  if s.par.S ≤ mx then .error .SIEVE_RANGE
  else
    let primes := primes34 mn mx
    if k = true ∧ primes.length < 2 then .error .GEN_POOL
    else .ok (s.setPrimes primes (sieve mx))

/-- `SIEVE`, `SIEVE.K` (R100). -/
def execSieve (k : Bool) (s : State) : Host.Outcome State Fault Refusal := complete (.sieve k) s (sieveRule k s)

end Sys2Proof.Machine
end

