-- ==== Sys2Proof/Machine/Dispatch.lean ====
section
/-! DEFINITION. One arm per command, each one call of its meaning. -/

namespace Sys2Proof.Machine

/-- The effect of a command issued to the core. -/
def exec (i : Instr) (s : State) : Host.Outcome State Fault Refusal :=
  match i with
  | .sieve k => Sys2Proof.Machine.execSieve k s
  | .xgcd k => Sys2Proof.Machine.execXgcd k s
  | .keyset => Sys2Proof.Machine.execKeyset s
  | .modsqr => Sys2Proof.Machine.execModsqr s
  | .modmul => Sys2Proof.Machine.execModmul s
  | .modexp => Sys2Proof.Machine.execModexp s
  | .crtsqrt => Sys2Proof.Machine.execCrtsqrt s
  | .benc => Sys2Proof.Machine.execBenc s
  | .bdec => Sys2Proof.Machine.execBdec s

end Sys2Proof.Machine
end

