-- ==== Sys2Proof/Machine/Port.lean ====
section
/-! DEFINITION. The host port (R60): the effect of one transaction. -/

namespace Sys2Proof.Machine

/-- `ISSUE w` (R76, R193): `REJECTED` undecoded while FAULTED (R191); an illegal word raises `ILLEGAL_CMD` and the latch
takes the word itself (R182); a legal word runs its command. -/
def doIssue (w : Word) (s : State) : Host.Outcome State Fault Refusal :=
  if s.faulted then .next (reject s)
  else
    match decode w with
    | .error _ => .next (faultEntry .ILLEGAL_CMD w s)
    | .ok i => exec i s

/-- The effect of a transaction (R60). -/
def perform (t : Transaction) (s : State) : Host.Outcome State Fault Refusal :=
  match t with
  | .wr i v => .next (doWr i v s)
  | .rd i => .next (doRd i s)
  | .rdpl k => .next (doRdpl k s)
  | .issue w => doIssue w s
  | .reset => .next (doReset s)

/-- One transaction (R60). What the port cannot express is refused (R61, R63; notes/assumptions/9.md). -/
def transact (t : Transaction) (s : State) : Host.Outcome State Fault Refusal :=
  if t.expressible s.par then perform t s else .refused .inexpressible

/-- The core at its port: it performs the oldest transaction the host has presented; with none it holds its state and
does nothing (R3, R224). DESIGN CHOICE: notes/assumptions/8.md. -/
def serve (s : State) : Host.Outcome State Fault Refusal :=
  match s.port with
  | [] => .next s
  | t :: rest => transact t (s.withPort rest)

/-- The state with `ISSUE w` presented before all else. -/
def State.presentIssue (s : State) (w : Word) : State := s.withPort (.issue w :: s.port)

end Sys2Proof.Machine
end

