-- ==== Sys2Proof/Machine/Step.lean ====
section
/-! DEFINITION. One step of the machine: one host transaction (R60). -/

namespace Sys2Proof.Machine

/-- One step. -/
def step (s : State) : Host.Outcome State Fault Refusal := serve s

/-- The state in which the very next step issues the command word whose bits are `w`: the core fetches nothing (R50); its
next command arrives in the oldest transaction of the port (R73). Every bit at or above `nbits` is 0. -/
def State.withFetchWord (s : State) (nbits w : Nat) : State := s.presentIssue (BitVec.ofNat 32 (w % 2 ^ nbits))

end Sys2Proof.Machine
end

