-- ==== Sys2Proof/Machine/Stream.lean ====
section
/-! DEFINITION. The stream protocol (47_stream_protocol.md, R170 to R178): what the host does around the core, as functions
that drive it one transaction at a time through `step`. They are the host's and no part of the core (90_conflicts.md C6,
92_eei_decisions.md D25). DESIGN CHOICE: notes/assumptions/13.md. -/

namespace Sys2Proof.Machine

/-- How a host procedure ends. -/
inductive HostResult (α : Type) where
  /-- It ends with a result, and the core in the state `s`. -/
  | ok (a : α) (s : State)
  /-- A command did not complete `DONE` (its completion, and the core as it left it); the procedure gives no output. -/
  | abort (c : Completion) (s : State)
  /-- The host itself takes a list of fewer than two primes as a hard failure, after a `SIEVE` that completed (R175). -/
  | poolTooSmall (s : State)
  /-- The host would have to present what it must not: a chunk that is not '0'/'1' (R171) or a value the port cannot express. -/
  | unable
deriving DecidableEq, Repr

/-- Go on with the result of the first part. -/
def HostResult.bind {α β : Type} (r : HostResult α) (f : α → State → HostResult β) : HostResult β :=
  match r with
  | .ok a s => f a s
  | .abort c s => .abort c s
  | .poolTooSmall s => .poolTooSmall s
  | .unable => .unable

/-- The host presents one transaction, the core performs it, the host takes the answer (R60, R70). -/
def request (t : Transaction) (s : State) : HostResult Answer :=
  match step (s.withPort (t :: s.port)) with
  | .next u => .ok u.answer u
  | .fault _ => .unable
  | .refused _ => .unable

/-- `WR` by name (R88): the value as the pattern of the register's width (R61). -/
def hostWr (r : RegName) (v : Nat) (s : State) : HostResult Answer := request (.wr r.index v) s

/-- The value an answer carries; 0 where it carries none. -/
def Answer.valueOf : Answer → Nat
  | .value v => v
  | .nothing => 0
  | .completion _ => 0

/-- `RD` by name (R88). -/
def hostRd (r : RegName) (s : State) : HostResult Nat :=
  (request (.rd r.index) s).bind fun a u => .ok a.valueOf u

/-- `RDPL` (R88). -/
def hostRdpl (k : Nat) (s : State) : HostResult Nat :=
  (request (.rdpl k) s).bind fun a u => .ok a.valueOf u

/-- What the host makes of the answer to an `ISSUE`: it goes on after `DONE` only (R217). -/
def checkDone (a : Answer) (u : State) : HostResult Unit :=
  match a with
  | .completion .done => .ok () u
  | .completion (.fault c) => .abort (.fault c) u
  | .completion .rejected => .abort .rejected u
  | .nothing => .unable
  | .value _ => .unable

/-- The `ISSUE` of a command, and the check of its completion (R217). -/
def hostIssue (i : Instr) (s : State) : HostResult Unit := (request (.issue (encode i)) s).bind checkDone

/-! ### Blocks and characters -/

/-- The character of a bit (R66). -/
def bitChar (b : Bool) : Char := if b then '1' else '0'

/-- `chars` (R170): the 32 characters of a block, bit 31 first. -/
def chars (c : Block) : List Char := (List.range 32).map fun j => bitChar (c.getLsbD (31 - j))

/-- A character a ciphertext may hold (R171). -/
def isBitChar (ch : Char) : Bool := ch == '0' || ch == '1'

/-- `blockval` (R171): the value a chunk spells, its first character the most significant. -/
def blockval (chunk : List Char) : Nat := chunk.foldl (fun acc ch => 2 * acc + (if ch = '1' then 1 else 0)) 0

/-! ### Stream encryption -/

/-- The loop of `stream_encrypt` (R172). -/
def encryptBytes : List Byte → State → HostResult (List Char)
  | [], s => .ok [] s
  | b :: bs, s =>
    (hostWr .BE_BYTE b.toNat s).bind fun _ s₁ =>
    (hostIssue .benc s₁).bind fun _ s₂ =>
    (hostRd .BE_BLK s₂).bind fun c s₃ =>
    (encryptBytes bs s₃).bind fun out s₄ =>
    .ok (chars (BitVec.ofNat 32 c) ++ out) s₄

/-- `stream_encrypt(B, n)` (R172). -/
def streamEncrypt (B : List Byte) (n : Nat) (s : State) : HostResult (List Char) :=
  (hostWr .BE_N n s).bind fun _ s₁ => encryptBytes B s₁

/-! ### Stream decryption -/

/-- The first `k` chunks of 32 characters of a stream (R173). -/
def chunks : Nat → List Char → List (List Char)
  | 0, _ => []
  | k + 1, t => t.take 32 :: chunks k (t.drop 32)

/-- The chunks the host presents: floor(len/32) of them, the rest is dropped (R173). -/
def cut (t : List Char) : List (List Char) := chunks (t.length / 32) t

/-- The loop of `stream_decrypt` (R174). -/
def decryptChunks : List (List Char) → State → HostResult (List Byte)
  | [], s => .ok [] s
  | ch :: rest, s =>
    if ch.all isBitChar = false then .unable
    else
      (hostWr .BD_BLK (blockval ch) s).bind fun _ s₁ =>
      (hostIssue .bdec s₁).bind fun _ s₂ =>
      (hostRd .BD_BYTE s₂).bind fun b s₃ =>
      (decryptChunks rest s₃).bind fun out s₄ =>
      .ok (BitVec.ofNat 8 b :: out) s₄

/-- `stream_decrypt(T, p, q)` (R174): the key is validated once, before any block (90_conflicts.md C6). -/
def streamDecrypt (T : List Char) (p q : Nat) (s : State) : HostResult (List Byte) :=
  (hostWr .K_P p s).bind fun _ s₁ =>
  (hostWr .K_Q q s₁).bind fun _ s₂ =>
  (hostIssue .keyset s₂).bind fun _ s₃ =>
  decryptChunks (cut T) s₃

/-! ### The boundary calls -/

/-- What `encrypt` gives: the ciphertext, the two primes and the modulus (R175). -/
structure Encrypted where
  ciphertext : List Char
  keyP : Nat
  keyQ : Nat
  modulus : Nat
deriving DecidableEq, Repr

/-- `encrypt(B)` (R175) over the range `mn`, `mx`, with `SIEVE.K` for `k` = true; with `SIEVE` the host makes the check of
`PCOUNT` itself. How the two distinct indices are chosen is in no source: `choose` gives them from `PCOUNT`, and
statements quantify over it. -/
def encryptCall (k : Bool) (mn mx : Nat) (choose : Nat → Nat × Nat) (B : List Byte) (s : State) : HostResult Encrypted :=
  (hostWr .SV_MIN mn s).bind fun _ s₁ =>
  (hostWr .SV_MAX mx s₁).bind fun _ s₂ =>
  (hostIssue (.sieve k) s₂).bind fun _ s₃ =>
  (hostRd .PCOUNT s₃).bind fun cnt s₄ =>
  if cnt < 2 then .poolTooSmall s₄ else
  (hostRdpl (choose cnt).1 s₄).bind fun p s₅ =>
  (hostRdpl (choose cnt).2 s₅).bind fun q s₆ =>
  (streamEncrypt B (p * q) s₆).bind fun t s₇ =>
  .ok ⟨t, p, q, p * q⟩ s₇

/-- `decrypt(T, p, q)` (R176). -/
def decryptCall (T : List Char) (p q : Nat) (s : State) : HostResult (List Byte) := streamDecrypt T p q s

end Sys2Proof.Machine
end

