-- ==== Sys2Proof/Safety.lean ====
section
/-! DEFINITION. The terms the statements use: what a legal state is (`State.Inv`), what of a state is the spec's
(`State.SameCore`), and the properties of numbers the rules name. -/

namespace Sys2Proof.Machine

/-- `isprime` (R101). -/
def IsPrime (i : Nat) : Prop := 2 ≤ i ∧ ∀ d, 1 < d → d < i → ¬ d ∣ i

/-- The numbers `SIEVE` looks for (R102). -/
def Qualifies (mn mx i : Nat) : Prop := mn ≤ i ∧ i ≤ mx ∧ IsPrime i ∧ i % 4 = 3

/-- `c` is a square modulo `p` (R130, R134). -/
def IsSquareMod (c p : Nat) : Prop := ∃ t, t * t % p = c % p

/-- A proper key (R134): distinct primes congruent to 3 mod 4 and coefficients with a·p + b·q = 1. -/
structure ProperKey (p q : Nat) (a b : Int) : Prop where
  prime_p : IsPrime p
  prime_q : IsPrime q
  distinct : p ≠ q
  congr_p : p % 4 = 3
  congr_q : q % 4 = 3
  bezout : a * p + b * q = 1

/-- A register's integer is in the range its width and sign give (R9). -/
def InRange (signed : Bool) (n : Nat) (v : Int) : Prop :=
  if signed then -(2 ^ (n - 1) : Nat) ≤ v ∧ v < (2 ^ (n - 1) : Nat) else 0 ≤ v ∧ v < (2 ^ n : Nat)

/-- Every register holds an integer of its range (R9, R21). -/
def State.Fits (s : State) : Prop := ∀ r : RegName, InRange r.signed (r.width s.par) (s.regValue r)

/-- The fault latch is legal (R51, R52, R53): all 0 while not FAULTED; else the code of one of the nine faults, and the code
1 exactly where the word is illegal (R182). -/
def State.LatchLegal (s : State) : Prop :=
  (¬ s.faulted → s.ctl.FCODE = 0#4 ∧ s.ctl.FCMD = 0#32) ∧
  (s.faulted → 1 ≤ s.ctl.FCODE.toNat ∧ s.ctl.FCODE.toNat ≤ 9) ∧
  (s.faulted → (s.ctl.FCODE = 1#4 ↔ ∀ i, decode s.ctl.FCMD ≠ .ok i))

/-- `BD_STAT` is legal (R28): all 0, or exactly one of `HIT`, `RANGE`, `MISS`, and `SEL` 0 with `MISS`. -/
def State.StatLegal (s : State) : Prop :=
  s.bd.BD_STAT = 0#5 ∨
  ∃ sel : BitVec 2, s.bd.BD_STAT = packStat sel true false false ∨ s.bd.BD_STAT = packStat sel false true false ∨
    s.bd.BD_STAT = packStat 0#2 false false true

/-- The prime list is legal (R48, R102, R104): in canonical form, with exactly the entries below `PCOUNT` and at most PLD
of them; each a prime congruent to 3 mod 4 below S, in ascending order. -/
structure State.ListLegal (s : State) : Prop where
  canonical : Memory.wf s.PL = true
  counted : ∀ k, k < s.sv.PCOUNT ↔ (Memory.read s.PL k).isSome
  bounded : s.sv.PCOUNT ≤ s.par.PLD
  primes : ∀ k v, Memory.read s.PL k = some v → IsPrime v ∧ v % 4 = 3 ∧ v < s.par.S
  ascending : ∀ j k u v, j < k → Memory.read s.PL j = some u → Memory.read s.PL k = some v → u < v

/-- The scratch is legal (R49, R101): in canonical form, within the S cells, a specified cell being 1 exactly for a prime. -/
structure State.ScratchLegal (s : State) : Prop where
  canonical : Memory.wf s.SV = true
  sound : ∀ i b, Memory.read s.SV i = some b → i < s.par.S ∧ (b = true ↔ IsPrime i)

/-- What every legal state satisfies. -/
structure State.Inv (s : State) : Prop where
  params : s.par.wf = true
  fits : s.Fits
  latch : s.LatchLegal
  stat : s.StatLegal
  list : s.ListLegal
  scratch : s.ScratchLegal

/-- Two states agree on everything the spec gives the core: all registers and both memories (R21, R48, R49), and the
parameters. They may differ in the model's own port, answer and draw count. -/
structure State.SameCore (s t : State) : Prop where
  par : t.par = s.par
  ms : t.ms = s.ms
  xg : t.xg = s.xg
  key : t.key = s.key
  cr : t.cr = s.cr
  be : t.be = s.be
  bd : t.bd = s.bd
  sv : t.sv = s.sv
  ctl : t.ctl = s.ctl
  PL : t.PL = s.PL
  SV : t.SV = s.SV

/-- As `SameCore`, but for the control registers (R190). -/
structure State.SameBesideCtl (s t : State) : Prop where
  par : t.par = s.par
  ms : t.ms = s.ms
  xg : t.xg = s.xg
  key : t.key = s.key
  cr : t.cr = s.cr
  be : t.be = s.be
  bd : t.bd = s.bd
  sv : t.sv = s.sv
  PL : t.PL = s.PL
  SV : t.SV = s.SV

end Sys2Proof.Machine
end

