-- ==== Sys2Proof/Certificates/Slice0/Obligations.lean ====
section
/-! DEFINITION. The statements for the provers. Each docstring names the rules it formalises. `exec i s = .next …` with an
explicit state says the result, the completion and the frame at once: every field not named keeps its value. -/

open Sys2Proof Sys2Proof.Machine

/-! ### Command words -/

/-- Words written out from R81, R82 and the illegal words of 95_test_vectors.md V9 decode as R91 says. -/
def Obligations.SampleWordsDecode : Prop :=
  decode 0x00000001#32 = .ok (.sieve false) ∧ decode 0x00000101#32 = .ok (.sieve true) ∧
  decode 0x00000102#32 = .ok (.xgcd true) ∧ decode 0x00000003#32 = .ok .keyset ∧
  decode 0x00000006#32 = .ok .modexp ∧ decode 0x00000007#32 = .ok .crtsqrt ∧
  decode 0x00000008#32 = .ok .benc ∧ decode 0x00000009#32 = .ok .bdec ∧
  decode 0x00000000#32 = .error .opcode ∧ decode 0x0000000A#32 = .error .opcode ∧
  decode 0x00000103#32 = .error .kBit ∧ decode 0x80000004#32 = .error .zeroBits

/-- Decoding and encoding agree, both ways, for all commands and all 2^32 words (R81, R82, R91). -/
def Obligations.DecodeEncodeInverse : Prop :=
  (∀ i : Instr, i.wf = true → decode (encode i) = .ok i) ∧
  ∀ (w : Word) (i : Instr), decode w = .ok i → w = encode i

/-- R82: a word selects a row when `w AND mask = match`; the rows and the decoder agree, and exactly eleven words are
legal. -/
def Obligations.ElevenLegalWords : Prop :=
  ∀ w : Word,
    (∀ r ∈ opcodeMap, r.selects w = true → ∃ i, decode w = .ok i ∧ i.mnemonic = r.mnemonic) ∧
    (∀ i, decode w = .ok i → ∃ r ∈ opcodeMap, r.selects w = true ∧ r.mnemonic = i.mnemonic) ∧
    ((∃ i, decode w = .ok i) ↔
      w ∈ [0x001#32, 0x002#32, 0x003#32, 0x004#32, 0x005#32, 0x006#32, 0x007#32, 0x008#32, 0x009#32,
           0x101#32, 0x102#32])

/-- R84, R182: a word is illegal exactly on the three grounds; issued to a core that is not FAULTED it raises
`ILLEGAL_CMD` (code 1): the latch takes the word itself, and nothing else is written. -/
def Obligations.IllegalWordsFault : Prop :=
  ∀ w : Word,
    ((∃ e, decode w = .error e) ↔
      w.extractLsb' 9 23 ≠ 0#23 ∨ w.extractLsb' 0 8 = 0#8 ∨ 0x0A ≤ (w.extractLsb' 0 8).toNat ∨
      (w.extractLsb' 8 1 = 1#1 ∧ 0x03 ≤ (w.extractLsb' 0 8).toNat ∧ (w.extractLsb' 0 8).toNat ≤ 0x09)) ∧
    ∀ (s : State) (rest : List Transaction), s.port = .issue w :: rest → ¬ s.faulted → (∃ e, decode w = .error e) →
      step s = .next { s with
        port := rest
        ctl := { s.ctl with STATUS := 1#1, FCODE := 1#4, FCMD := w }
        answer := .completion (.fault .ILLEGAL_CMD) }

/-! ### The host port and the step -/

/-- A step runs the decoded command (R76, R193): the transaction is taken off the port and the command runs on the
rest, FAULTED or not (a FAULTED core rejects it). `withFetchWord` presents exactly such a transaction. The port and
its order are the model's form of the host (log entry 8). -/
def Obligations.StepRunsDecodedCommand : Prop :=
  (∀ (s : State) (w : Word) (i : Instr) (rest : List Transaction),
    s.port = .issue w :: rest → decode w = .ok i → step s = exec i { s with port := rest }) ∧
  ∀ (s : State) (nbits w : Nat) (i : Instr),
    decode (BitVec.ofNat 32 (w % 2 ^ nbits)) = .ok i → step (s.withFetchWord nbits w) = exec i s

/-- With no transaction presented the core holds its state and does nothing (R3, R224). That a step with nothing
presented is a step at all is the model's choice (log entry 8). -/
def Obligations.IdleCoreHoldsState : Prop := ∀ s : State, s.port = [] → step s = .next s

/-- R180, R79: every transaction the port can express is answered; an `ISSUE` answers exactly one completion, with the
latch alone changed by a fault and nothing changed by a rejection. The port and the answer field are the model's form
of the host (log entry 8), and that a faulting `SIEVE.K` leaves the scratch as it was is the model's choice (log entry
7). -/
def Obligations.EveryTransactionAnswers : Prop :=
  ∀ (s : State) (t : Transaction) (rest : List Transaction),
    s.port = t :: rest → t.expressible s.par = true →
    ∃ u, step s = .next u ∧ u.port = rest ∧ u.par = s.par ∧
      ∀ w, t = .issue w →
        (¬ s.faulted ∧ u.answer = .completion .done ∧ ¬ u.faulted) ∨
        (∃ c, ¬ s.faulted ∧ u = { s with
          port := rest
          ctl := { s.ctl with STATUS := 1#1, FCODE := c.code, FCMD := w }
          answer := .completion (.fault c) }) ∨
        (s.faulted ∧ u = { s with port := rest, answer := .completion .rejected })

/-- R61: what `WR` does, for every register and every unmapped index, FAULTED or not. -/
def Obligations.WriteTransaction : Prop :=
  (∀ (s : State) (r : RegName) (v : Nat) (rest : List Transaction),
    s.port = .wr r.index v :: rest → v < 2 ^ r.width s.par →
    ∃ u, step s = .next u ∧ u.answer = .nothing ∧ u.port = rest ∧ u.par = s.par ∧ u.draws = s.draws ∧
      u.PL = s.PL ∧ u.SV = s.SV ∧
      (∀ r', r' ≠ r → u.regValue r' = s.regValue r') ∧
      (¬ s.faulted ∧ r.writable = true →
        u.regValue r = if r.signed then (if v < 2 ^ s.par.W then (v : Int) else (v : Int) - (2 ^ (s.par.W + 1) : Nat))
                       else (v : Int)) ∧
      (s.faulted ∨ r.writable = false → u.regValue r = s.regValue r)) ∧
  (∀ (s : State) (i : RegIndex) (v : Nat) (rest : List Transaction),
    s.port = .wr i v :: rest → (∀ r : RegName, r.index ≠ i) →
    step s = .next { s with port := rest, answer := .nothing })

/-- R62: what `RD` answers, FAULTED or not, with no state changed: the register's pattern, 0 for an unmapped index. -/
def Obligations.ReadTransaction : Prop :=
  (∀ (s : State) (r : RegName) (rest : List Transaction), s.port = .rd r.index :: rest →
    step s = .next { s with port := rest, answer := .value (s.regValue r % (2 ^ r.width s.par : Nat)).toNat }) ∧
  (∀ (s : State) (i : RegIndex) (rest : List Transaction), s.port = .rd i :: rest → (∀ r : RegName, r.index ≠ i) →
    step s = .next { s with port := rest, answer := .value 0 })

/-- A `RD` answers what the latest `WR` wrote (R61, R62, R70), through both signed and unsigned registers. -/
def Obligations.ReadAfterWrite : Prop :=
  ∀ (s : State) (r : RegName) (v : Nat) (rest : List Transaction),
    ¬ s.faulted → r.writable = true → v < 2 ^ r.width s.par → s.port = .wr r.index v :: .rd r.index :: rest →
    ∃ u t, step s = .next u ∧ step u = .next t ∧ t.answer = .value v

/-- R63: what `RDPL` answers: the entry below `PCOUNT`, some W-bit value (a free one) at or above it; no register,
entry or latch changes, FAULTED or not. The value at or above `PCOUNT` is free (log entry 5). -/
def Obligations.PrimeListRead : Prop :=
  ∀ (s : State) (k : Nat) (rest : List Transaction),
    s.ListLegal → k < 2 ^ s.par.W → s.port = .rdpl k :: rest →
    ∃ u v, step s = .next u ∧ s.SameCore u ∧ u.port = rest ∧ u.answer = .value v ∧
      (k < s.sv.PCOUNT → Memory.read s.PL k = some v) ∧ (s.sv.PCOUNT ≤ k → v < 2 ^ s.par.W)

/-- R57, R77: `RESET`, FAULTED or not, puts the control registers at their reset values and clears the latch; the data
registers hold some value of their width, and nothing of the prime list is specified. The data registers' values are
free (log entry 4); an empty list is how the model says that nothing of `PL` and `SV` is specified (log entries 6 and
7). -/
def Obligations.ResetTransaction : Prop :=
  ∀ (s : State) (rest : List Transaction), s.port = .reset :: rest →
    ∃ u, step s = .next u ∧ u.port = rest ∧ u.answer = .nothing ∧ u.par = s.par ∧ ¬ u.faulted ∧
      u.ctl = { CTRL := 0#1, PHOLD := 0x3F#8, STATUS := 0#1, FCODE := 0#4, FCMD := 0#32 } ∧
      u.bd.BD_STAT = 0#5 ∧ u.sv.PCOUNT = 0 ∧ u.PL = [] ∧ u.SV = [] ∧ u.Fits

/-- The state after reset has the values R57 gives, for all parameters; the parameters of `State.reset` are the model's
choice (log entry 1). Nothing is said of the data registers, whose values are the model's choice too (log entry 3). -/
def Obligations.ResetStateValues : Prop :=
  ∀ p : Config.Params,
    (State.resetWith p).ctl = { CTRL := 0#1, PHOLD := 0x3F#8, STATUS := 0#1, FCODE := 0#4, FCMD := 0#32 } ∧
    (State.resetWith p).bd.BD_STAT = 0#5 ∧ (State.resetWith p).sv.PCOUNT = 0 ∧ (State.resetWith p).par = p ∧
    State.reset = State.resetWith ⟨64, 65536⟩

/-- What the port cannot express is refused, and nothing else is: a `WR` value outside its register's width, a `RDPL`
index of 2^W or more. The refusal is the model's form of R61's "cannot be expressed" (log entry 9). -/
def Obligations.InexpressibleRefused : Prop :=
  (∀ (s : State) (r : RegName) (v : Nat) (rest : List Transaction),
    s.port = .wr r.index v :: rest → 2 ^ r.width s.par ≤ v → step s = .refused .inexpressible) ∧
  (∀ (s : State) (k : Nat) (rest : List Transaction),
    s.port = .rdpl k :: rest → 2 ^ s.par.W ≤ k → step s = .refused .inexpressible) ∧
  ∀ (s : State) (x : Refusal), step s = .refused x →
    ∃ rest, (∃ (r : RegName) (v : Nat), s.port = .wr r.index v :: rest ∧ 2 ^ r.width s.par ≤ v) ∨
      ∃ k, s.port = .rdpl k :: rest ∧ 2 ^ s.par.W ≤ k

/-! ### Faults and the FAULTED state -/

/-- A command that raises a fault changes the three latch registers and nothing else (R190, R194). That a faulting
`SIEVE.K` leaves the scratch too as it was is the model's choice (log entry 7): R49 leaves it unspecified. -/
def Obligations.FaultEntryPrecise : Prop :=
  ∀ (i : Instr) (s t : State) (c : FaultCode), exec i s = .next t → t.answer = .completion (.fault c) →
    t = { s with ctl := { s.ctl with STATUS := 1#1, FCODE := c.code, FCMD := encode i }
                 answer := .completion (.fault c) }

/-- The codes of R181. -/
def Obligations.FaultCodeNumbers : Prop :=
  [FaultCode.ILLEGAL_CMD, .GEN_POOL, .KEY_CONGRUENCE, .KEY_NOT_COPRIME, .BLOCK_OVERFLOW, .MOD_ZERO, .WIDTH,
    .SIEVE_RANGE, .DECODE_MISS].map FaultCode.code = [1#4, 2#4, 3#4, 4#4, 5#4, 6#4, 7#4, 8#4, 9#4]

/-- R191: what each transaction does while FAULTED. -/
def Obligations.FaultedTransactions : Prop :=
  ∀ (s : State) (rest : List Transaction), s.faulted →
    (∀ w, s.port = .issue w :: rest → step s = .next { s with port := rest, answer := .completion .rejected }) ∧
    (∀ i v, s.port = .wr i v :: rest → Transaction.expressible s.par (.wr i v) = true →
      step s = .next { s with port := rest, answer := .nothing }) ∧
    (∀ r : RegName, s.port = .rd r.index :: rest →
      step s = .next { s with port := rest, answer := .value (s.readReg r) }) ∧
    (∀ k v, s.port = .rdpl k :: rest → k < 2 ^ s.par.W → k < s.sv.PCOUNT → Memory.read s.PL k = some v →
      step s = .next { s with port := rest, answer := .value v }) ∧
    (s.port = .reset :: rest → ∃ u, step s = .next u ∧ ¬ u.faulted)

/-- R191: once FAULTED, no register, no prime-list entry and no latch field changes until `RESET`, however long the
run. What may change is the model's own port, answer and draw count (log entries 4 and 8). -/
def Obligations.FaultedUntilReset : Prop :=
  ∀ (n : Nat) (s t : State), s.faulted → Transaction.reset ∉ s.port →
    Host.Core.run Sys2Proof.core n s = .next t → s.SameCore t

/-- The invariant every step keeps, from every state that has it: all registers in range (R9, R187), a legal latch
(R52, R53), a legal `BD_STAT` (R28), and a prime list of ascending primes congruent to 3 mod 4 that fits its memory
(R48, R104), and a scratch that lists no cell but those below S, each 1 exactly for a prime (R101). The bounds of the
W-bit registers are the model's form of their width (log entry 2); the canonical form of both memories and what the
scratch holds between commands are the model's choice (log entries 6 and 7). -/
def Obligations.StepKeepsInv : Prop := ∀ s t : State, s.Inv → step s = .next t → t.Inv

/-- The state after reset has the invariant, for all admissible parameters. The data registers' values are the model's
choice (log entry 3). -/
def Obligations.ResetMeetsInv : Prop :=
  (∀ p : Config.Params, p.wf = true → (State.resetWith p).Inv) ∧ State.reset.Inv

/-- R68: a command that completed `DONE`, issued again at once, leaves the same state and answers `DONE` again. R68
gives it as the spec's own inference; that the state includes the scratch is the model's choice (log entry 7). -/
def Obligations.DoneIsIdempotent : Prop :=
  ∀ (i : Instr) (s t : State), exec i s = .next t → t.answer = .completion .done → exec i t = .next t

/-- What each command may write (R21, R22, R126, R215): its destination registers, the latch, and nothing else. -/
def Obligations.CommandFrames : Prop :=
  ∀ (i : Instr) (s t : State), exec i s = .next t →
    (t.par = s.par ∧ t.port = s.port ∧ t.draws = s.draws ∧ t.ctl.CTRL = s.ctl.CTRL ∧ t.ctl.PHOLD = s.ctl.PHOLD) ∧
    (∀ r : RegName, r.writable = true → r ≠ .K_A → r ≠ .K_B → r ≠ .CR_C → t.regValue r = s.regValue r) ∧
    (i ≠ .keyset → t.key = s.key) ∧
    (i ≠ .bdec → t.cr.CR_C = s.cr.CR_C ∧ t.bd = s.bd) ∧
    (i ≠ .bdec → i ≠ .crtsqrt → t.cr = s.cr) ∧
    (i ≠ .modsqr → i ≠ .modmul → i ≠ .modexp → t.ms = s.ms) ∧
    ((∀ k, i ≠ .xgcd k) → t.xg = s.xg) ∧
    (i ≠ .benc → t.be = s.be) ∧
    ((∀ k, i ≠ .sieve k) → t.sv = s.sv ∧ t.PL = s.PL ∧ t.SV = s.SV)

/-! ### Unit prime_sieve_gen -/

/-- `SIEVE` within range (and, for `SIEVE.K`, with two qualifying primes) completes (R100, with R101 and R102): `PL`
holds the qualifying primes in ascending order, `PCOUNT` their number, and each scratch cell up to `SV_MAX` says whether
its index is prime. Nothing else changes. That nothing is listed at or above `PCOUNT` is the model's choice (log entry
6), and so is what the scratch holds after the command (log entry 7): R48, R49 and R222 leave both unspecified. -/
def Obligations.SieveResult : Prop :=
  ∀ (s : State) (k : Bool), ¬ s.faulted → s.sv.SV_MAX < s.par.S →
    (k = true → ∃ i j, i < j ∧ Qualifies s.sv.SV_MIN s.sv.SV_MAX i ∧ Qualifies s.sv.SV_MIN s.sv.SV_MAX j) →
    ∃ (L : List Nat) (cells : List Bool),
      L.Pairwise (· < ·) ∧ (∀ i, i ∈ L ↔ Qualifies s.sv.SV_MIN s.sv.SV_MAX i) ∧
      cells.length = s.sv.SV_MAX + 1 ∧ (∀ i b, cells[i]? = some b → (b = true ↔ IsPrime i)) ∧
      (∀ t, Memory.read (Memory.load L) t = L[t]?) ∧
      exec (.sieve k) s = .next { s with
        sv := { s.sv with PCOUNT := L.length }
        PL := Memory.load L
        SV := Memory.load cells
        answer := .completion .done }

/-- `SIEVE_RANGE` is the first test of both forms (R189); `GEN_POOL` the second, of `SIEVE.K` only (R183). `SIEVE`
raises neither for a small result, and `SV_MIN` above `SV_MAX` gives the empty list. That `GEN_POOL` leaves the scratch
as it was is the model's choice (log entry 7), and so is that an empty `PL` lists nothing (log entry 6). -/
def Obligations.SieveFaults : Prop :=
  ∀ (s : State), ¬ s.faulted →
    (∀ k, s.par.S ≤ s.sv.SV_MAX → exec (.sieve k) s = .next (faultEntry .SIEVE_RANGE (encode (.sieve k)) s)) ∧
    (s.sv.SV_MAX < s.par.S →
      (¬ ∃ i j, i < j ∧ Qualifies s.sv.SV_MIN s.sv.SV_MAX i ∧ Qualifies s.sv.SV_MIN s.sv.SV_MAX j) →
      exec (.sieve true) s = .next (faultEntry .GEN_POOL 0x00000101#32 s)) ∧
    (s.sv.SV_MAX < s.par.S → ∃ t, exec (.sieve false) s = .next t ∧ t.answer = .completion .done ∧
      (s.sv.SV_MAX < s.sv.SV_MIN → t.sv.PCOUNT = 0 ∧ t.PL = []))

/-- R104: the prime list cannot overflow. R104 is the spec's own inference from R102 and R6. -/
def Obligations.PrimeListNeverOverflows : Prop :=
  ∀ mn mx : Nat,
    ((List.range (mx + 1)).filter (fun i => i % 4 == 3)).length = (mx + 1) / 4 ∧
    (primes34 mn mx).length ≤ (mx + 1) / 4 ∧
    ∀ p : Config.Params, p.wf = true → mx ≤ p.S - 1 → (mx + 1) / 4 ≤ p.S / 4 ∧ p.S / 4 = p.PLD

/-! ### Unit bezout_xgcd -/

/-- R111: the recursion that defines `xgcd`. -/
def Obligations.XgcdRecursion : Prop :=
  (∀ a, xgcd a 0 = ⟨a, 1, 0⟩) ∧
  ∀ a b, 0 < b →
    xgcd a b = ⟨(xgcd b (a % b)).g, (xgcd b (a % b)).y, (xgcd b (a % b)).x - (a / b : Nat) * (xgcd b (a % b)).y⟩

/-- R112: the contract of `xgcd`. R112 is the spec's own inference from R111. -/
def Obligations.XgcdContract : Prop :=
  (∀ a b : Nat, (xgcd a b).g = Nat.gcd a b ∧
    (a : Int) * (xgcd a b).x + (b : Int) * (xgcd a b).y = ((xgcd a b).g : Int)) ∧
  xgcd 0 0 = ⟨0, 1, 0⟩

/-- R113: the size of the coefficients, that they always fit, and their shape for two distinct odd primes. R113 is the
spec's own inference and general knowledge. -/
def Obligations.XgcdBounds : Prop :=
  (∀ a b : Nat, 0 < (xgcd a b).g →
    (xgcd a b).x.natAbs ≤ max 1 (b / (xgcd a b).g) ∧ (xgcd a b).y.natAbs ≤ max 1 (a / (xgcd a b).g)) ∧
  ((xgcd 0 0).x = 1 ∧ (xgcd 0 0).y = 0) ∧
  (∀ W a b : Nat, 1 ≤ W → a < 2 ^ W → b < 2 ^ W →
    (xgcd a b).x.natAbs ≤ 2 ^ W - 1 ∧ (xgcd a b).y.natAbs ≤ 2 ^ W - 1) ∧
  (∀ (s t : State) (i : Instr), (i = .keyset ∨ ∃ k, i = .xgcd k) → exec i s = .next t →
    t.answer ≠ .completion (.fault .WIDTH)) ∧
  (∀ p q : Nat, IsPrime p → IsPrime q → p ≠ q → p % 2 = 1 → q % 2 = 1 →
    (xgcd p q).x.natAbs < q ∧ (xgcd p q).y.natAbs < p ∧
    (((xgcd p q).x < 0 ∧ 0 ≤ (xgcd p q).y) ∨ (0 ≤ (xgcd p q).x ∧ (xgcd p q).y < 0)))

/-- R110 (words 0x00000002, 0x00000102): `XGCD` completes for all operands; `XGCD.K` completes where the gcd is 1 and
else raises `KEY_NOT_COPRIME` with no result written. -/
def Obligations.XgcdResult : Prop :=
  (encode (.xgcd false) = 0x00000002#32 ∧ encode (.xgcd true) = 0x00000102#32) ∧
  ∀ (s : State) (k : Bool), ¬ s.faulted →
    (k = false ∨ Nat.gcd s.xg.XG_A s.xg.XG_B = 1 →
      exec (.xgcd k) s = .next { s with
        xg := { s.xg with XG_G := Nat.gcd s.xg.XG_A s.xg.XG_B
                          XG_X := (xgcd s.xg.XG_A s.xg.XG_B).x
                          XG_Y := (xgcd s.xg.XG_A s.xg.XG_B).y }
        answer := .completion .done }) ∧
    (k = true → Nat.gcd s.xg.XG_A s.xg.XG_B ≠ 1 →
      exec (.xgcd k) s = .next (faultEntry .KEY_NOT_COPRIME 0x00000102#32 s))

/-- R115: `KEYSET` loads coefficients with a·p + b·q = 1 for a valid pair; `KEY_CONGRUENCE` comes first, then
`KEY_NOT_COPRIME`. -/
def Obligations.KeysetResult : Prop :=
  ∀ s : State, ¬ s.faulted →
    (s.key.K_P % 4 = 3 → s.key.K_Q % 4 = 3 → Nat.gcd s.key.K_P s.key.K_Q = 1 →
      ∃ a b : Int, a * s.key.K_P + b * s.key.K_Q = 1 ∧ (xgcd s.key.K_P s.key.K_Q) = ⟨1, a, b⟩ ∧
        exec .keyset s = .next { s with key := { s.key with K_A := a, K_B := b }, answer := .completion .done }) ∧
    (s.key.K_P % 4 ≠ 3 ∨ s.key.K_Q % 4 ≠ 3 →
      exec .keyset s = .next (faultEntry .KEY_CONGRUENCE 0x00000003#32 s)) ∧
    (s.key.K_P % 4 = 3 → s.key.K_Q % 4 = 3 → Nat.gcd s.key.K_P s.key.K_Q ≠ 1 →
      exec .keyset s = .next (faultEntry .KEY_NOT_COPRIME 0x00000003#32 s))

/-- R117: the CRT combination does not depend on which Bezout pair is used. R117 is the spec's own inference from R112
and R132. -/
def Obligations.CandidatesIndependentOfBezout : Prop :=
  ∀ (p q r s : Nat) (a b a' b' : Int), 0 < p * q → a * p + b * q = 1 → a' * p + b' * q = 1 →
    crt4 p q a b r s = crt4 p q a' b' r s

/-! ### Unit modular_square_mult -/

/-- R121, R122: the modular square and product, exact before the reduction; `MOD_ZERO` where the modulus is 0. `BENC`
computes the same square without touching the unit's registers. -/
def Obligations.ModularProductResults : Prop :=
  (encode .modsqr = 0x00000004#32 ∧ encode .modmul = 0x00000005#32) ∧
  (∀ s : State, ¬ s.faulted → s.ms.MS_M ≠ 0 →
    exec .modsqr s = .next { s with ms := { s.ms with MS_R := (s.ms.MS_A * s.ms.MS_A) % s.ms.MS_M }
                                    answer := .completion .done } ∧
    exec .modmul s = .next { s with ms := { s.ms with MS_R := (s.ms.MS_A * s.ms.MS_B) % s.ms.MS_M }
                                    answer := .completion .done }) ∧
  (∀ s : State, ¬ s.faulted → s.ms.MS_M = 0 →
    exec .modsqr s = .next (faultEntry .MOD_ZERO 0x00000004#32 s) ∧
    exec .modmul s = .next (faultEntry .MOD_ZERO 0x00000005#32 s)) ∧
  ∀ s t : State, exec .benc s = .next t → t.ms = s.ms

/-- R123, R120: the modular power, with b^0 = 1 for every b; `MOD_ZERO` where the modulus is 0. -/
def Obligations.ModexpResult : Prop :=
  encode .modexp = 0x00000006#32 ∧
  (∀ b e m : Nat, 1 ≤ m → modexp b e m = b ^ e % m) ∧
  (∀ s : State, ¬ s.faulted → s.ms.MS_M ≠ 0 →
    exec .modexp s = .next { s with ms := { s.ms with MS_R := s.ms.MS_A ^ s.ms.MS_E % s.ms.MS_M }
                                    answer := .completion .done }) ∧
  ∀ s : State, ¬ s.faulted → s.ms.MS_M = 0 → exec .modexp s = .next (faultEntry .MOD_ZERO 0x00000006#32 s)

/-- R188: `MOD_ZERO` is the first test of the three commands and of `BENC`, and no other command raises it. -/
def Obligations.ModZeroFaults : Prop :=
  (∀ (s : State) (i : Instr), ¬ s.faulted →
    (i = .modsqr ∨ i = .modmul ∨ i = .modexp) ∧ s.ms.MS_M = 0 ∨ i = .benc ∧ s.be.BE_N = 0 →
    exec i s = .next (faultEntry .MOD_ZERO (encode i) s)) ∧
  ∀ (s t : State) (i : Instr), exec i s = .next t → t.answer = .completion (.fault .MOD_ZERO) →
    (i = .modsqr ∨ i = .modmul ∨ i = .modexp) ∧ s.ms.MS_M = 0 ∨ i = .benc ∧ s.be.BE_N = 0

/-! ### Unit crt_sqrtmod_engine -/

/-- R131, R132: `CRTSQRT` (word 0x00000007) writes the two closed-form roots and the four candidates, in the fixed
order; first `KEY_CONGRUENCE`, then `WIDTH`. -/
def Obligations.CrtsqrtResult : Prop :=
  ∀ (s : State) (p q r t n : Nat) (a b : Int), ¬ s.faulted →
    p = s.key.K_P → q = s.key.K_Q → a = s.key.K_A → b = s.key.K_B → n = p * q →
    r = s.cr.CR_C ^ ((p + 1) / 4) % p → t = s.cr.CR_C ^ ((q + 1) / 4) % q →
    (p % 4 = 3 → q % 4 = 3 → n < 2 ^ s.par.W →
      ∃ x y : Nat, (x : Int) = (a * p * t + b * q * r) % n ∧ (y : Int) = (a * p * t - b * q * r) % n ∧ x < n ∧ y < n ∧
        exec .crtsqrt s = .next { s with
          cr := { s.cr with CR_R := r, CR_S := t, CAND0 := x, CAND1 := y, CAND2 := n - x, CAND3 := n - y }
          answer := .completion .done }) ∧
    (p % 4 ≠ 3 ∨ q % 4 ≠ 3 → exec .crtsqrt s = .next (faultEntry .KEY_CONGRUENCE 0x00000007#32 s)) ∧
    (p % 4 = 3 → q % 4 = 3 → 2 ^ s.par.W ≤ n → exec .crtsqrt s = .next (faultEntry .WIDTH 0x00000007#32 s))

/-- R184: `KEY_CONGRUENCE` is the first test of `KEYSET`, `CRTSQRT` and `BDEC`. -/
def Obligations.KeyCongruenceFaults : Prop :=
  ∀ (s : State) (i : Instr), ¬ s.faulted → i = .keyset ∨ i = .crtsqrt ∨ i = .bdec →
    s.key.K_P % 4 ≠ 3 ∨ s.key.K_Q % 4 ≠ 3 →
    exec i s = .next (faultEntry .KEY_CONGRUENCE (encode i) s)

/-- `WIDTH` is raised by `CRTSQRT` and `BDEC` where K_P·K_Q >= 2^W, after the congruence, and by nothing else (R187). -/
def Obligations.WidthFaults : Prop :=
  (∀ (s : State) (i : Instr), ¬ s.faulted → i = .crtsqrt ∨ i = .bdec → s.key.K_P % 4 = 3 → s.key.K_Q % 4 = 3 →
    2 ^ s.par.W ≤ s.key.K_P * s.key.K_Q → exec i s = .next (faultEntry .WIDTH (encode i) s)) ∧
  ∀ (s t : State) (i : Instr), exec i s = .next t → t.answer = .completion (.fault .WIDTH) →
    (i = .crtsqrt ∨ i = .bdec) ∧ s.key.K_P % 4 = 3 ∧ s.key.K_Q % 4 = 3 ∧ 2 ^ s.par.W ≤ s.key.K_P * s.key.K_Q

/-- The ranges of the candidates (R133): the third is n itself where the first is 0, and so the fourth. R133 is the
spec's own inference from R132. -/
def Obligations.CandidateRanges : Prop :=
  ∀ (p q r s : Nat) (a b : Int), 0 < p * q →
    (crt4 p q a b r s).v0 < p * q ∧ (crt4 p q a b r s).v1 < p * q ∧
    1 ≤ (crt4 p q a b r s).v2 ∧ (crt4 p q a b r s).v2 ≤ p * q ∧
    1 ≤ (crt4 p q a b r s).v3 ∧ (crt4 p q a b r s).v3 ≤ p * q ∧
    ((crt4 p q a b r s).v0 = 0 ↔ (crt4 p q a b r s).v2 = p * q) ∧
    ((crt4 p q a b r s).v1 = 0 ↔ (crt4 p q a b r s).v3 = p * q)

/-- R134: for a proper key, either all four candidates square to c modulo n (c a square modulo both primes) or none
does. R134 is the spec's own inference from R130 and R132. -/
def Obligations.CandidatesAllOrNone : Prop :=
  ∀ (p q c : Nat) (a b : Int), ProperKey p q a b →
    (IsSquareMod c p ∧ IsSquareMod c q →
      ∀ v ∈ (crt4 p q a b (rootp c p) (rootp c q)).toList, v * v % (p * q) = c % (p * q)) ∧
    (¬ (IsSquareMod c p ∧ IsSquareMod c q) →
      ∀ v ∈ (crt4 p q a b (rootp c p) (rootp c q)).toList, v * v % (p * q) ≠ c % (p * q))

/-- R135: for a proper key, the number whose square was taken is among the candidates exactly when it is at most n.
R135 is the spec's own inference from R134. -/
def Obligations.PlaintextAmongCandidates : Prop :=
  ∀ (p q c m : Nat) (a b : Int), ProperKey p q a b → c % (p * q) = m * m % (p * q) →
    (m ∈ (crt4 p q a b (rootp c p) (rootp c q)).toList ↔ m ≤ p * q)

/-- R137: exchanging the primes' roles keeps x and exchanges `CAND1` and `CAND3`. R137 is the spec's own inference
from R132. -/
def Obligations.SwappedPrimeRoles : Prop :=
  ∀ (p q r s : Nat) (a b : Int), 0 < p * q →
    (crt4 q p b a s r).v0 = (crt4 p q a b r s).v0 ∧ (crt4 q p b a s r).v2 = (crt4 p q a b r s).v2 ∧
    ((crt4 p q a b r s).v1 ≠ 0 →
      (crt4 q p b a s r).v1 = p * q - (crt4 p q a b r s).v1 ∧
      (crt4 q p b a s r).v1 = (crt4 p q a b r s).v3 ∧ (crt4 q p b a s r).v3 = (crt4 p q a b r s).v1)

/-! ### The redundancy codec -/

/-- R141: `REncode` is the value of the minimal binary string written twice; for b >= 1 that string is minimal again. -/
def Obligations.EncodeDoublesTheString : Prop :=
  (∀ b : Nat, REncode b = intval (binstr b ++ binstr b)) ∧
  (∀ b : Nat, 1 ≤ b → binstr (REncode b) = binstr b ++ binstr b ∧ bitlen (REncode b) = 2 * bitlen b) ∧
  REncode 0 = 0 ∧ ∀ b : Nat, b ≤ 255 → REncode b ≤ 65535

/-- R143: `RDecode` accepts exactly the strings of even length at least 2 whose halves are equal, and gives the half. -/
def Obligations.DecodeTestsTheString : Prop :=
  ∀ v h : Nat,
    RDecode v = some h ↔
      2 ≤ (binstr v).length ∧ (binstr v).length % 2 = 0 ∧
      (binstr v).take ((binstr v).length / 2) = (binstr v).drop ((binstr v).length / 2) ∧
      h = intval ((binstr v).take ((binstr v).length / 2))

/-- R144: what is accepted, as arithmetic; every byte but 0 comes back from its own encoding. R144 is the spec's own
inference from R143. -/
def Obligations.DecodeAccepts : Prop :=
  (∀ v h : Nat, RDecode v = some h ↔ 1 ≤ h ∧ v = h * (2 ^ bitlen h + 1)) ∧
  (∀ b : Nat, 1 ≤ b → RDecode (REncode b) = some b) ∧ RDecode (REncode 0) = none ∧
  (List.range 1024).filter (fun v => (RDecode v).isSome) =
    [3, 10, 15, 36, 45, 54, 63, 136, 153, 170, 187, 204, 221, 238, 255, 528, 561, 594, 627, 660, 693, 726, 759, 792,
      825, 858, 891, 924, 957, 990, 1023]

/-! ### Units rabin_block_encrypt and rabin_block_decrypt -/

/-- R150, R152: `BENC` completes for every non-zero modulus, and its two results are the exact values. -/
def Obligations.BencResult : Prop :=
  ∀ s : State, ¬ s.faulted → s.be.BE_N ≠ 0 →
    ∃ (m : BitVec 16) (c : Block),
      m.toNat = REncode s.be.BE_BYTE.toNat ∧
      c.toNat = REncode s.be.BE_BYTE.toNat * REncode s.be.BE_BYTE.toNat % s.be.BE_N ∧
      exec .benc s = .next { s with be := { s.be with BE_M := m, BE_BLK := c }, answer := .completion .done }

/-- R152, R186: no command ever raises `BLOCK_OVERFLOW`. R152 is the spec's own inference from R150 and R141. -/
def Obligations.BlockOverflowUnreachable : Prop :=
  (∀ (b : Byte) (n : Nat), 1 ≤ n → REncode b.toNat ≤ 65535 ∧ REncode b.toNat * REncode b.toNat ≤ 4294836225 ∧
    REncode b.toNat * REncode b.toNat % n < 2 ^ 32) ∧
  ∀ (i : Instr) (s t : State), exec i s = .next t → t.answer ≠ .completion (.fault .BLOCK_OVERFLOW)

/-- R161: `select4` takes the first candidate that decodes, by the string test alone, and tests its range afterwards. -/
def Obligations.FirstMatchSelected : Prop :=
  ∀ v : Candidates,
    (∀ i h, select4 v = .hit i h ↔
      (∃ x, v.toList[i]? = some x ∧ RDecode x = some h) ∧ h ≤ 255 ∧
      ∀ j x, j < i → v.toList[j]? = some x → RDecode x = none) ∧
    (∀ i h, select4 v = .range i h ↔
      (∃ x, v.toList[i]? = some x ∧ RDecode x = some h) ∧ 255 < h ∧
      ∀ j x, j < i → v.toList[j]? = some x → RDecode x = none) ∧
    (select4 v = .miss ↔ ∀ x ∈ v.toList, RDecode x = none)

/-- R160: `BDEC` under a key that passes its tests, where a byte is found or the mode is not strict. -/
def Obligations.BdecResult : Prop :=
  ∀ (s : State) (c r t : Nat) (v : Candidates), ¬ s.faulted →
    s.key.K_P % 4 = 3 → s.key.K_Q % 4 = 3 → s.key.K_P * s.key.K_Q < 2 ^ s.par.W →
    c = s.bd.BD_BLK.toNat → r = c ^ ((s.key.K_P + 1) / 4) % s.key.K_P → t = c ^ ((s.key.K_Q + 1) / 4) % s.key.K_Q →
    v = crt4 s.key.K_P s.key.K_Q s.key.K_A s.key.K_B r t →
    ((∃ i h, select4 v = .hit i h) ∨ s.ctl.CTRL = 0#1) →
    ∃ (byte : Byte) (stat : BitVec 5),
      exec .bdec s = .next { s with
        cr := { CR_C := c, CR_R := r, CR_S := t, CAND0 := v.v0, CAND1 := v.v1, CAND2 := v.v2, CAND3 := v.v3 }
        bd := { s.bd with BD_BYTE := byte, BD_STAT := stat }
        answer := .completion .done } ∧
      (∀ i h, select4 v = .hit i h →
        byte.toNat = h ∧ (statSel stat).toNat = i ∧ statHit stat = true ∧ statRange stat = false ∧ statMiss stat = false) ∧
      (∀ i h, select4 v = .range i h →
        byte = s.ctl.PHOLD ∧ (statSel stat).toNat = i ∧ statHit stat = false ∧ statRange stat = true ∧
          statMiss stat = false) ∧
      (select4 v = .miss →
        byte = s.ctl.PHOLD ∧ (statSel stat).toNat = 0 ∧ statHit stat = false ∧ statRange stat = false ∧
          statMiss stat = true)

/-- R192: in strict mode a block that gives no byte raises `DECODE_MISS`, after the tests of the key; and only then. -/
def Obligations.StrictModeFaults : Prop :=
  (∀ s : State, ¬ s.faulted → s.ctl.CTRL = 1#1 →
    s.key.K_P % 4 = 3 → s.key.K_Q % 4 = 3 → s.key.K_P * s.key.K_Q < 2 ^ s.par.W →
    (∀ i h, select4 (s.candidates s.bd.BD_BLK.toNat) ≠ .hit i h) →
    exec .bdec s = .next (faultEntry .DECODE_MISS 0x00000009#32 s)) ∧
  ∀ (i : Instr) (s t : State), exec i s = .next t → t.answer = .completion (.fault .DECODE_MISS) →
    i = .bdec ∧ s.ctl.CTRL = 1#1 ∧ s.key.K_P % 4 = 3 ∧ s.key.K_Q % 4 = 3 ∧ s.key.K_P * s.key.K_Q < 2 ^ s.par.W ∧
      ∀ j h, select4 (s.candidates s.bd.BD_BLK.toNat) ≠ .hit j h

/-- R166: `BDEC` is memoryless: its byte, status and completion depend on `BD_BLK`, the key context, `CTRL`, `PHOLD`
(and W) only. R166 is the spec's own inference from R160. -/
def Obligations.BdecMemoryless : Prop :=
  ∀ s s' t t' : State, s.par.W = s'.par.W → s.bd.BD_BLK = s'.bd.BD_BLK → s.key = s'.key →
    s.ctl.CTRL = s'.ctl.CTRL → s.ctl.PHOLD = s'.ctl.PHOLD → ¬ s.faulted → ¬ s'.faulted →
    exec .bdec s = .next t → exec .bdec s' = .next t' →
    t.answer = t'.answer ∧ (t.answer = .completion .done → t.bd = t'.bd ∧ t.cr = t'.cr)

/-- The first part of `BDEC` is `CRTSQRT` applied to the block (R160, R25): both leave the same `CR_*` and `CAND*`. -/
def Obligations.BdecExtendsCrtsqrt : Prop :=
  ∀ s t : State, exec .bdec s = .next t → t.answer = .completion .done →
    ∃ u, exec .crtsqrt { s with cr := { s.cr with CR_C := s.bd.BD_BLK.toNat } } = .next u ∧
      u.answer = .completion .done ∧ u.cr = t.cr

/-! ### The stream protocol -/

/-- R171: `blockval` and `chars` are inverse, and `blockval` is the sum the rule gives. -/
def Obligations.CharsBlockvalInverse : Prop :=
  (∀ c : Block, (chars c).length = 32 ∧ (chars c).all isBitChar = true ∧ blockval (chars c) = c.toNat) ∧
  (∀ ch : List Char, ch.length = 32 → ch.all isBitChar = true → chars (BitVec.ofNat 32 (blockval ch)) = ch) ∧
  ∀ ch : List Char, ch.length = 32 →
    blockval ch = ((List.range 32).map fun j => if ch[j]? = some '1' then 2 ^ (31 - j) else 0).sum

/-- R172: stream encryption gives one block of 32 characters per byte, block i depending on byte i and n only; for n =
0 the first byte faults. The procedure is the host's, driven through `step` (log entry 13). -/
def Obligations.StreamEncryptResult : Prop :=
  ∀ (s : State) (B : List Byte) (n : Nat), ¬ s.faulted → n < 2 ^ s.par.W →
    (n ≠ 0 → ∃ u, streamEncrypt B n s =
        .ok (B.flatMap fun b => chars (BitVec.ofNat 32 (REncode b.toNat * REncode b.toNat % n))) u ∧
      (B.flatMap fun b => chars (BitVec.ofNat 32 (REncode b.toNat * REncode b.toNat % n))).length = 32 * B.length ∧
      ¬ u.faulted) ∧
    (n = 0 → B ≠ [] → ∃ u, streamEncrypt B n s = .abort (.fault .MOD_ZERO) u) ∧
    (B = [] → ∃ u, streamEncrypt B n s = .ok [] u)

/-- Truncation (R173, R178): fewer than 32 characters after the last full block change nothing. R178 is the spec's own
inference; it is stated for a T of whole blocks, where it holds (log entry 16). -/
def Obligations.TruncatedTailIgnored : Prop :=
  ∀ (s : State) (T tail : List Char) (p q : Nat), T.length % 32 = 0 → tail.length < 32 →
    streamDecrypt (T ++ tail) p q s = streamDecrypt T p q s

/-- R176, R174: a bad key aborts with the key-validity fault before any block, also for an empty stream: the
registers of the block decryption and of the square roots are as before. A valid key with n < 2^W, not in strict mode,
gives exactly floor(len/32) bytes. The procedure is the host's, driven through `step` (log entry 13). -/
def Obligations.StreamDecryptLength : Prop :=
  ∀ (s : State) (T : List Char) (p q : Nat), ¬ s.faulted → p < 2 ^ s.par.W → q < 2 ^ s.par.W →
    (p % 4 ≠ 3 ∨ q % 4 ≠ 3 →
      ∃ u, streamDecrypt T p q s = .abort (.fault .KEY_CONGRUENCE) u ∧ u.bd = s.bd ∧ u.cr = s.cr) ∧
    (p % 4 = 3 → q % 4 = 3 → Nat.gcd p q ≠ 1 →
      ∃ u, streamDecrypt T p q s = .abort (.fault .KEY_NOT_COPRIME) u ∧ u.bd = s.bd ∧ u.cr = s.cr) ∧
    (p % 4 = 3 → q % 4 = 3 → Nat.gcd p q = 1 → p * q < 2 ^ s.par.W → s.ctl.CTRL = 0#1 → T.all isBitChar = true →
      ∃ B u, streamDecrypt T p q s = .ok B u ∧ B.length = T.length / 32)

/-- The round trip (R177): what comes back for each byte, and that it is the byte itself where the byte is not 0, its
encoding is below n and no candidate before the one equal to it decodes. R177 is the spec's own inference; its
equivalence is worded as what comes back (log entry 16). -/
def Obligations.StreamRoundTrip : Prop :=
  ∀ (s : State) (B : List Byte) (p q : Nat), ¬ s.faulted → s.ctl.CTRL = 0#1 →
    IsPrime p → IsPrime q → p ≠ q → p % 4 = 3 → q % 4 = 3 → p * q < 2 ^ s.par.W →
    ∃ T u B' t, streamEncrypt B (p * q) s = .ok T u ∧ streamDecrypt T p q u = .ok B' t ∧ B'.length = B.length ∧
      ∀ (i : Nat) (b b' : Byte), B[i]? = some b → B'[i]? = some b' →
        ∀ (m c : Nat) (v : Candidates), m = REncode b.toNat → c = m * m % (p * q) →
          v = crt4 p q (xgcd p q).x (xgcd p q).y (rootp c p) (rootp c q) →
          (∀ k h, select4 v = .hit k h → b'.toNat = h) ∧
          ((∀ k h, select4 v ≠ .hit k h) → b' = s.ctl.PHOLD) ∧
          (b ≠ 0#8 → m < p * q →
            (∀ k : Nat, v.toList[k]? = some m → (∀ j : Nat, j < k → v.toList[j]? ≠ some m) →
              ∀ j x : Nat, j < k → v.toList[j]? = some x → RDecode x = none) → b' = b)

/-- `encrypt` (R175), with `SIEVE.K` or with `SIEVE`: with two qualifying primes in the range it picks two distinct ones
and the ciphertext is that of `stream_encrypt` (R172) under their product, 32 characters per byte; with fewer it fails
with the generation error, before any block: by the core's fault after `SIEVE.K`, by the host's own check after `SIEVE`.
How the two indices are chosen is an argument (log entry 13). -/
def Obligations.EncryptCallKeys : Prop :=
  ∀ (s : State) (k : Bool) (mn mx : Nat) (choose : Nat → Nat × Nat) (B : List Byte),
    s.par.wf = true → ¬ s.faulted → mn < 2 ^ s.par.W → mx < s.par.S → mx * mx < 2 ^ s.par.W →
    (∀ cnt, 2 ≤ cnt → (choose cnt).1 < cnt ∧ (choose cnt).2 < cnt ∧ (choose cnt).1 ≠ (choose cnt).2) →
    ((∃ i j, i < j ∧ Qualifies mn mx i ∧ Qualifies mn mx j) →
      ∃ e u, encryptCall k mn mx choose B s = .ok e u ∧ Qualifies mn mx e.keyP ∧ Qualifies mn mx e.keyQ ∧
        e.keyP ≠ e.keyQ ∧ e.modulus = e.keyP * e.keyQ ∧
        e.ciphertext = (B.flatMap fun b => chars (BitVec.ofNat 32 (REncode b.toNat * REncode b.toNat % e.modulus))) ∧
        e.ciphertext.length = 32 * B.length ∧ ¬ u.faulted) ∧
    ((¬ ∃ i j, i < j ∧ Qualifies mn mx i ∧ Qualifies mn mx j) →
      (k = true → ∃ u, encryptCall k mn mx choose B s = .abort (.fault .GEN_POOL) u ∧ u.be = s.be) ∧
      (k = false → ∃ u, encryptCall k mn mx choose B s = .poolTooSmall u ∧ u.be = s.be ∧ ¬ u.faulted))
end

