-- ==== Sys2Proof/Laws/Arith.lean ====
section
/-! SUPPORT. One lemma per loop of the exact arithmetic, saying once what it computes. -/

namespace Sys2Proof.Machine

/-! ### bitlen (R10) -/

/-- The bounds that define `bitlen` of a positive number. -/
theorem bitlen_bounds {v : Nat} (h : v ≠ 0) : 2 ^ (bitlen v - 1) ≤ v ∧ v < 2 ^ bitlen v ∧ 1 ≤ bitlen v := by
  simp only [bitlen, if_neg h, Nat.add_sub_cancel]
  exact ⟨Nat.log2_self_le h, Nat.lt_log2_self, by omega⟩

theorem lt_two_pow_bitlen (v : Nat) : v < 2 ^ bitlen v := by
  by_cases h : v = 0
  · subst h; decide
  · exact (bitlen_bounds h).2.1

/-- The bounds determine `bitlen`. -/
theorem bitlen_eq {v k : Nat} (h1 : 2 ^ k ≤ v) (h2 : v < 2 ^ (k + 1)) : bitlen v = k + 1 := by
  have hv : v ≠ 0 := by have := Nat.pow_pos (n := k) (show 0 < 2 by norm_num); omega
  obtain ⟨a, b, _⟩ := bitlen_bounds hv
  have h3 : k < bitlen v := (Nat.pow_lt_pow_iff_right (by norm_num)).mp (lt_of_le_of_lt h1 b)
  have h4 : bitlen v - 1 < k + 1 := (Nat.pow_lt_pow_iff_right (by norm_num)).mp (lt_of_le_of_lt a h2)
  omega

/-! ### Binary strings (R10) -/

theorem bitsFrom_length (v n : Nat) : (bitsFrom v n).length = n := by
  induction n with
  | zero => rfl
  | succ n ih => rw [bitsFrom, List.length_cons, ih]

theorem intval_foldl (s : List Bool) (a : Nat) :
    s.foldl (fun acc c => 2 * acc + c.toNat) a = a * 2 ^ s.length + intval s := by
  induction s generalizing a with
  | nil => simp [intval]
  | cons b s ih =>
    simp only [List.foldl_cons, List.length_cons, intval]
    rw [ih, ih (2 * 0 + b.toNat)]
    ring

/-- The value of a string from its first character. -/
theorem intval_cons (b : Bool) (s : List Bool) : intval (b :: s) = b.toNat * 2 ^ s.length + intval s := by
  rw [intval, List.foldl_cons, intval_foldl]
  simp

theorem intval_append (s t : List Bool) : intval (s ++ t) = intval s * 2 ^ t.length + intval t := by
  rw [intval, List.foldl_append, intval_foldl]
  rfl

theorem intval_lt (s : List Bool) : intval s < 2 ^ s.length := by
  induction s with
  | nil => simp [intval]
  | cons b s ih => rw [intval_cons, List.length_cons, pow_succ]; cases b <;> simp <;> omega

/-- The low `n` bits of a number spell its remainder. -/
theorem intval_bitsFrom (v n : Nat) : intval (bitsFrom v n) = v % 2 ^ n := by
  induction n with
  | zero => simp [bitsFrom, intval, Nat.mod_one]
  | succ n ih =>
    rw [bitsFrom, intval_cons, bitsFrom_length, ih, pow_succ, Nat.mod_mul, ← Nat.toNat_testBit]
    ring

/-! ### The sieve's loops (R101, R102) -/

@[simp] theorem strike_length (i : Nat) (cells : List Bool) (j : Nat) : (strike i j cells).length = cells.length := by
  induction cells generalizing j with
  | nil => rfl
  | cons b bs ih => simp [strike, ih]

/-- What striking leaves in each cell. -/
theorem strike_getElem? (i : Nat) (cells : List Bool) (j k : Nat) :
    (strike i j cells)[k]? = cells[k]?.map (fun b => b && !(decide (i * i ≤ j + k) && (j + k) % i == 0)) := by
  induction cells generalizing j k with
  | nil => simp [strike]
  | cons b bs ih =>
    cases k with
    | zero => simp [strike]
    | succ k =>
      simp only [strike, List.getElem?_cons_succ, ih]
      congr
      funext b
      rw [show j + 1 + k = j + (k + 1) by ring]

/-- What is collected from the cells `j`, `j + 1`, …. -/
theorem mem_collect (mn i : Nat) (cells : List Bool) (j : Nat) :
    i ∈ collect mn j cells ↔ j ≤ i ∧ cells[i - j]? = some true ∧ mn ≤ i ∧ i % 4 = 3 := by
  induction cells generalizing j with
  | nil => simp [collect]
  | cons b bs ih =>
    have e : ∀ P : Prop, (j ≤ i ∧ (b :: bs)[i - j]? = some true ∧ P) ↔
        ((i = j ∧ b = true ∧ P) ∨ (j + 1 ≤ i ∧ bs[i - (j + 1)]? = some true ∧ P)) := by
      intro P
      rcases lt_trichotomy i j with h | rfl | h
      · constructor
        · rintro ⟨a, _⟩; omega
        · rintro (⟨a, _⟩ | ⟨a, _⟩) <;> omega
      · simp
      · have : i - j = (i - (j + 1)) + 1 := by omega
        simp [this, h.le, h.ne', Nat.succ_le_of_lt h]
    rw [e]
    simp only [collect]
    split
    · rename_i hc
      simp only [Bool.and_eq_true, decide_eq_true_eq, beq_iff_eq] at hc
      rw [List.mem_cons, ih]
      exact ⟨fun x => x.elim (fun h => .inl ⟨h, hc.1.1, h ▸ hc.1.2, h ▸ hc.2⟩) .inr, fun x => x.imp And.left id⟩
    · rename_i hc
      simp only [Bool.and_eq_true, decide_eq_true_eq, beq_iff_eq] at hc
      rw [ih]
      refine ⟨.inr, ?_⟩
      rintro (⟨rfl, x, y, z⟩ | x)
      · exact absurd ⟨⟨x, y⟩, z⟩ hc
      · exact x

theorem collect_pairwise (mn : Nat) (cells : List Bool) (j : Nat) : (collect mn j cells).Pairwise (· < ·) := by
  induction cells generalizing j with
  | nil => simp [collect]
  | cons b bs ih =>
    simp only [collect]
    split
    · exact List.pairwise_cons.mpr ⟨fun x hx => ((mem_collect mn x bs (j + 1)).mp hx).1, ih _⟩
    · exact ih _

/-! ### The Euclid recursion and the power loop (R111, R124) -/

/-- The bound on the recursion does not matter once it is at least the second argument. -/
theorem xgcdLoop_fuel {f f' : Nat} (a : Nat) {b : Nat} (h : b ≤ f) (h' : b ≤ f') : xgcdLoop f a b = xgcdLoop f' a b := by
  induction f generalizing f' a b with
  | zero =>
    obtain rfl : b = 0 := by omega
    cases f' <;> simp [xgcdLoop]
  | succ f ih =>
    cases f' with
    | zero =>
      obtain rfl : b = 0 := by omega
      simp [xgcdLoop]
    | succ f' =>
      rw [xgcdLoop, xgcdLoop]
      split
      · rfl
      · have := Nat.mod_lt a (show 0 < b by omega)
        rw [ih (f' := f') b (b := a % b) (by omega) (by omega)]

/-- The running result stays below the modulus. -/
theorem modexpLoop_lt (b e : Nat) {m : Nat} (n : Nat) {r : Nat} (hm : 1 ≤ m) (hr : r < m) : modexpLoop b e m n r < m := by
  induction n generalizing r with
  | zero => exact hr
  | succ n ih => rw [modexpLoop]; apply ih; split <;> exact Nat.mod_lt _ hm

/-! ### The selection (R161) -/

/-- The selection from its first candidate. -/
theorem selectFrom_cons_none {v : Nat} (i : Nat) (vs : List Nat) (h : RDecode v = none) :
    selectFrom i (v :: vs) = selectFrom (i + 1) vs := by
  simp only [selectFrom, h]

theorem selectFrom_cons_some {v k : Nat} (i : Nat) (vs : List Nat) (h : RDecode v = some k) :
    selectFrom i (v :: vs) = if k ≤ 255 then .hit i k else .range i k := by
  simp only [selectFrom, h]

/-- The fields of a packed `BD_STAT` (R28). -/
theorem packStat_fields (sel : BitVec 2) (hit range miss : Bool) :
    statSel (packStat sel hit range miss) = sel ∧ statHit (packStat sel hit range miss) = hit ∧
      statRange (packStat sel hit range miss) = range ∧ statMiss (packStat sel hit range miss) = miss := by
  revert sel hit range miss
  decide

end Sys2Proof.Machine
end

