-- ==== Sys2Proof/Laws/State.lean ====
section
/-! SUPPORT. One lemma per field per update of the state, so that no proof unfolds a record update. -/

namespace Sys2Proof.Machine

variable (s : State)

/-! ### State.answering -/

@[simp] theorem State.answering_par (a : Answer) : (s.answering a).par = s.par := rfl
@[simp] theorem State.answering_ms (a : Answer) : (s.answering a).ms = s.ms := rfl
@[simp] theorem State.answering_xg (a : Answer) : (s.answering a).xg = s.xg := rfl
@[simp] theorem State.answering_key (a : Answer) : (s.answering a).key = s.key := rfl
@[simp] theorem State.answering_cr (a : Answer) : (s.answering a).cr = s.cr := rfl
@[simp] theorem State.answering_be (a : Answer) : (s.answering a).be = s.be := rfl
@[simp] theorem State.answering_bd (a : Answer) : (s.answering a).bd = s.bd := rfl
@[simp] theorem State.answering_sv (a : Answer) : (s.answering a).sv = s.sv := rfl
@[simp] theorem State.answering_ctl (a : Answer) : (s.answering a).ctl = s.ctl := rfl
@[simp] theorem State.answering_PL (a : Answer) : (s.answering a).PL = s.PL := rfl
@[simp] theorem State.answering_SV (a : Answer) : (s.answering a).SV = s.SV := rfl
@[simp] theorem State.answering_port (a : Answer) : (s.answering a).port = s.port := rfl
@[simp] theorem State.answering_answer (a : Answer) : (s.answering a).answer = a := rfl
@[simp] theorem State.answering_draws (a : Answer) : (s.answering a).draws = s.draws := rfl

/-! ### State.withPort -/

@[simp] theorem State.withPort_par (p : List Transaction) : (s.withPort p).par = s.par := rfl
@[simp] theorem State.withPort_ms (p : List Transaction) : (s.withPort p).ms = s.ms := rfl
@[simp] theorem State.withPort_xg (p : List Transaction) : (s.withPort p).xg = s.xg := rfl
@[simp] theorem State.withPort_key (p : List Transaction) : (s.withPort p).key = s.key := rfl
@[simp] theorem State.withPort_cr (p : List Transaction) : (s.withPort p).cr = s.cr := rfl
@[simp] theorem State.withPort_be (p : List Transaction) : (s.withPort p).be = s.be := rfl
@[simp] theorem State.withPort_bd (p : List Transaction) : (s.withPort p).bd = s.bd := rfl
@[simp] theorem State.withPort_sv (p : List Transaction) : (s.withPort p).sv = s.sv := rfl
@[simp] theorem State.withPort_ctl (p : List Transaction) : (s.withPort p).ctl = s.ctl := rfl
@[simp] theorem State.withPort_PL (p : List Transaction) : (s.withPort p).PL = s.PL := rfl
@[simp] theorem State.withPort_SV (p : List Transaction) : (s.withPort p).SV = s.SV := rfl
@[simp] theorem State.withPort_port (p : List Transaction) : (s.withPort p).port = p := rfl
@[simp] theorem State.withPort_answer (p : List Transaction) : (s.withPort p).answer = s.answer := rfl
@[simp] theorem State.withPort_draws (p : List Transaction) : (s.withPort p).draws = s.draws := rfl

/-! ### State.drawn -/

@[simp] theorem State.drawn_par : (s.drawn).par = s.par := rfl
@[simp] theorem State.drawn_ms : (s.drawn).ms = s.ms := rfl
@[simp] theorem State.drawn_xg : (s.drawn).xg = s.xg := rfl
@[simp] theorem State.drawn_key : (s.drawn).key = s.key := rfl
@[simp] theorem State.drawn_cr : (s.drawn).cr = s.cr := rfl
@[simp] theorem State.drawn_be : (s.drawn).be = s.be := rfl
@[simp] theorem State.drawn_bd : (s.drawn).bd = s.bd := rfl
@[simp] theorem State.drawn_sv : (s.drawn).sv = s.sv := rfl
@[simp] theorem State.drawn_ctl : (s.drawn).ctl = s.ctl := rfl
@[simp] theorem State.drawn_PL : (s.drawn).PL = s.PL := rfl
@[simp] theorem State.drawn_SV : (s.drawn).SV = s.SV := rfl
@[simp] theorem State.drawn_port : (s.drawn).port = s.port := rfl
@[simp] theorem State.drawn_answer : (s.drawn).answer = s.answer := rfl
@[simp] theorem State.drawn_draws : (s.drawn).draws = s.draws + 1 := rfl

/-! ### State.setMsR -/

@[simp] theorem State.setMsR_par (v : Nat) : (s.setMsR v).par = s.par := rfl
@[simp] theorem State.setMsR_ms (v : Nat) : (s.setMsR v).ms = { s.ms with MS_R := v } := rfl
@[simp] theorem State.setMsR_xg (v : Nat) : (s.setMsR v).xg = s.xg := rfl
@[simp] theorem State.setMsR_key (v : Nat) : (s.setMsR v).key = s.key := rfl
@[simp] theorem State.setMsR_cr (v : Nat) : (s.setMsR v).cr = s.cr := rfl
@[simp] theorem State.setMsR_be (v : Nat) : (s.setMsR v).be = s.be := rfl
@[simp] theorem State.setMsR_bd (v : Nat) : (s.setMsR v).bd = s.bd := rfl
@[simp] theorem State.setMsR_sv (v : Nat) : (s.setMsR v).sv = s.sv := rfl
@[simp] theorem State.setMsR_ctl (v : Nat) : (s.setMsR v).ctl = s.ctl := rfl
@[simp] theorem State.setMsR_PL (v : Nat) : (s.setMsR v).PL = s.PL := rfl
@[simp] theorem State.setMsR_SV (v : Nat) : (s.setMsR v).SV = s.SV := rfl
@[simp] theorem State.setMsR_port (v : Nat) : (s.setMsR v).port = s.port := rfl
@[simp] theorem State.setMsR_answer (v : Nat) : (s.setMsR v).answer = s.answer := rfl
@[simp] theorem State.setMsR_draws (v : Nat) : (s.setMsR v).draws = s.draws := rfl

/-! ### State.setXg -/

@[simp] theorem State.setXg_par (g : Nat) (x y : Int) : (s.setXg g x y).par = s.par := rfl
@[simp] theorem State.setXg_ms (g : Nat) (x y : Int) : (s.setXg g x y).ms = s.ms := rfl
@[simp] theorem State.setXg_xg (g : Nat) (x y : Int) : (s.setXg g x y).xg = { s.xg with XG_G := g, XG_X := x, XG_Y := y } := rfl
@[simp] theorem State.setXg_key (g : Nat) (x y : Int) : (s.setXg g x y).key = s.key := rfl
@[simp] theorem State.setXg_cr (g : Nat) (x y : Int) : (s.setXg g x y).cr = s.cr := rfl
@[simp] theorem State.setXg_be (g : Nat) (x y : Int) : (s.setXg g x y).be = s.be := rfl
@[simp] theorem State.setXg_bd (g : Nat) (x y : Int) : (s.setXg g x y).bd = s.bd := rfl
@[simp] theorem State.setXg_sv (g : Nat) (x y : Int) : (s.setXg g x y).sv = s.sv := rfl
@[simp] theorem State.setXg_ctl (g : Nat) (x y : Int) : (s.setXg g x y).ctl = s.ctl := rfl
@[simp] theorem State.setXg_PL (g : Nat) (x y : Int) : (s.setXg g x y).PL = s.PL := rfl
@[simp] theorem State.setXg_SV (g : Nat) (x y : Int) : (s.setXg g x y).SV = s.SV := rfl
@[simp] theorem State.setXg_port (g : Nat) (x y : Int) : (s.setXg g x y).port = s.port := rfl
@[simp] theorem State.setXg_answer (g : Nat) (x y : Int) : (s.setXg g x y).answer = s.answer := rfl
@[simp] theorem State.setXg_draws (g : Nat) (x y : Int) : (s.setXg g x y).draws = s.draws := rfl

/-! ### State.setBezout -/

@[simp] theorem State.setBezout_par (a b : Int) : (s.setBezout a b).par = s.par := rfl
@[simp] theorem State.setBezout_ms (a b : Int) : (s.setBezout a b).ms = s.ms := rfl
@[simp] theorem State.setBezout_xg (a b : Int) : (s.setBezout a b).xg = s.xg := rfl
@[simp] theorem State.setBezout_key (a b : Int) : (s.setBezout a b).key = { s.key with K_A := a, K_B := b } := rfl
@[simp] theorem State.setBezout_cr (a b : Int) : (s.setBezout a b).cr = s.cr := rfl
@[simp] theorem State.setBezout_be (a b : Int) : (s.setBezout a b).be = s.be := rfl
@[simp] theorem State.setBezout_bd (a b : Int) : (s.setBezout a b).bd = s.bd := rfl
@[simp] theorem State.setBezout_sv (a b : Int) : (s.setBezout a b).sv = s.sv := rfl
@[simp] theorem State.setBezout_ctl (a b : Int) : (s.setBezout a b).ctl = s.ctl := rfl
@[simp] theorem State.setBezout_PL (a b : Int) : (s.setBezout a b).PL = s.PL := rfl
@[simp] theorem State.setBezout_SV (a b : Int) : (s.setBezout a b).SV = s.SV := rfl
@[simp] theorem State.setBezout_port (a b : Int) : (s.setBezout a b).port = s.port := rfl
@[simp] theorem State.setBezout_answer (a b : Int) : (s.setBezout a b).answer = s.answer := rfl
@[simp] theorem State.setBezout_draws (a b : Int) : (s.setBezout a b).draws = s.draws := rfl

/-! ### State.setRoots -/

@[simp] theorem State.setRoots_par (r t v0 v1 v2 v3 : Nat) : (s.setRoots r t v0 v1 v2 v3).par = s.par := rfl
@[simp] theorem State.setRoots_ms (r t v0 v1 v2 v3 : Nat) : (s.setRoots r t v0 v1 v2 v3).ms = s.ms := rfl
@[simp] theorem State.setRoots_xg (r t v0 v1 v2 v3 : Nat) : (s.setRoots r t v0 v1 v2 v3).xg = s.xg := rfl
@[simp] theorem State.setRoots_key (r t v0 v1 v2 v3 : Nat) : (s.setRoots r t v0 v1 v2 v3).key = s.key := rfl
@[simp] theorem State.setRoots_cr (r t v0 v1 v2 v3 : Nat) : (s.setRoots r t v0 v1 v2 v3).cr = { s.cr with CR_R := r, CR_S := t, CAND0 := v0, CAND1 := v1, CAND2 := v2, CAND3 := v3 } := rfl
@[simp] theorem State.setRoots_be (r t v0 v1 v2 v3 : Nat) : (s.setRoots r t v0 v1 v2 v3).be = s.be := rfl
@[simp] theorem State.setRoots_bd (r t v0 v1 v2 v3 : Nat) : (s.setRoots r t v0 v1 v2 v3).bd = s.bd := rfl
@[simp] theorem State.setRoots_sv (r t v0 v1 v2 v3 : Nat) : (s.setRoots r t v0 v1 v2 v3).sv = s.sv := rfl
@[simp] theorem State.setRoots_ctl (r t v0 v1 v2 v3 : Nat) : (s.setRoots r t v0 v1 v2 v3).ctl = s.ctl := rfl
@[simp] theorem State.setRoots_PL (r t v0 v1 v2 v3 : Nat) : (s.setRoots r t v0 v1 v2 v3).PL = s.PL := rfl
@[simp] theorem State.setRoots_SV (r t v0 v1 v2 v3 : Nat) : (s.setRoots r t v0 v1 v2 v3).SV = s.SV := rfl
@[simp] theorem State.setRoots_port (r t v0 v1 v2 v3 : Nat) : (s.setRoots r t v0 v1 v2 v3).port = s.port := rfl
@[simp] theorem State.setRoots_answer (r t v0 v1 v2 v3 : Nat) : (s.setRoots r t v0 v1 v2 v3).answer = s.answer := rfl
@[simp] theorem State.setRoots_draws (r t v0 v1 v2 v3 : Nat) : (s.setRoots r t v0 v1 v2 v3).draws = s.draws := rfl

/-! ### State.setCrC -/

@[simp] theorem State.setCrC_par (c : Nat) : (s.setCrC c).par = s.par := rfl
@[simp] theorem State.setCrC_ms (c : Nat) : (s.setCrC c).ms = s.ms := rfl
@[simp] theorem State.setCrC_xg (c : Nat) : (s.setCrC c).xg = s.xg := rfl
@[simp] theorem State.setCrC_key (c : Nat) : (s.setCrC c).key = s.key := rfl
@[simp] theorem State.setCrC_cr (c : Nat) : (s.setCrC c).cr = { s.cr with CR_C := c } := rfl
@[simp] theorem State.setCrC_be (c : Nat) : (s.setCrC c).be = s.be := rfl
@[simp] theorem State.setCrC_bd (c : Nat) : (s.setCrC c).bd = s.bd := rfl
@[simp] theorem State.setCrC_sv (c : Nat) : (s.setCrC c).sv = s.sv := rfl
@[simp] theorem State.setCrC_ctl (c : Nat) : (s.setCrC c).ctl = s.ctl := rfl
@[simp] theorem State.setCrC_PL (c : Nat) : (s.setCrC c).PL = s.PL := rfl
@[simp] theorem State.setCrC_SV (c : Nat) : (s.setCrC c).SV = s.SV := rfl
@[simp] theorem State.setCrC_port (c : Nat) : (s.setCrC c).port = s.port := rfl
@[simp] theorem State.setCrC_answer (c : Nat) : (s.setCrC c).answer = s.answer := rfl
@[simp] theorem State.setCrC_draws (c : Nat) : (s.setCrC c).draws = s.draws := rfl

/-! ### State.setBlock -/

@[simp] theorem State.setBlock_par (m : BitVec 16) (c : Block) : (s.setBlock m c).par = s.par := rfl
@[simp] theorem State.setBlock_ms (m : BitVec 16) (c : Block) : (s.setBlock m c).ms = s.ms := rfl
@[simp] theorem State.setBlock_xg (m : BitVec 16) (c : Block) : (s.setBlock m c).xg = s.xg := rfl
@[simp] theorem State.setBlock_key (m : BitVec 16) (c : Block) : (s.setBlock m c).key = s.key := rfl
@[simp] theorem State.setBlock_cr (m : BitVec 16) (c : Block) : (s.setBlock m c).cr = s.cr := rfl
@[simp] theorem State.setBlock_be (m : BitVec 16) (c : Block) : (s.setBlock m c).be = { s.be with BE_M := m, BE_BLK := c } := rfl
@[simp] theorem State.setBlock_bd (m : BitVec 16) (c : Block) : (s.setBlock m c).bd = s.bd := rfl
@[simp] theorem State.setBlock_sv (m : BitVec 16) (c : Block) : (s.setBlock m c).sv = s.sv := rfl
@[simp] theorem State.setBlock_ctl (m : BitVec 16) (c : Block) : (s.setBlock m c).ctl = s.ctl := rfl
@[simp] theorem State.setBlock_PL (m : BitVec 16) (c : Block) : (s.setBlock m c).PL = s.PL := rfl
@[simp] theorem State.setBlock_SV (m : BitVec 16) (c : Block) : (s.setBlock m c).SV = s.SV := rfl
@[simp] theorem State.setBlock_port (m : BitVec 16) (c : Block) : (s.setBlock m c).port = s.port := rfl
@[simp] theorem State.setBlock_answer (m : BitVec 16) (c : Block) : (s.setBlock m c).answer = s.answer := rfl
@[simp] theorem State.setBlock_draws (m : BitVec 16) (c : Block) : (s.setBlock m c).draws = s.draws := rfl

/-! ### State.setByte -/

@[simp] theorem State.setByte_par (b : Byte) (stat : BitVec 5) : (s.setByte b stat).par = s.par := rfl
@[simp] theorem State.setByte_ms (b : Byte) (stat : BitVec 5) : (s.setByte b stat).ms = s.ms := rfl
@[simp] theorem State.setByte_xg (b : Byte) (stat : BitVec 5) : (s.setByte b stat).xg = s.xg := rfl
@[simp] theorem State.setByte_key (b : Byte) (stat : BitVec 5) : (s.setByte b stat).key = s.key := rfl
@[simp] theorem State.setByte_cr (b : Byte) (stat : BitVec 5) : (s.setByte b stat).cr = s.cr := rfl
@[simp] theorem State.setByte_be (b : Byte) (stat : BitVec 5) : (s.setByte b stat).be = s.be := rfl
@[simp] theorem State.setByte_bd (b : Byte) (stat : BitVec 5) : (s.setByte b stat).bd = { s.bd with BD_BYTE := b, BD_STAT := stat } := rfl
@[simp] theorem State.setByte_sv (b : Byte) (stat : BitVec 5) : (s.setByte b stat).sv = s.sv := rfl
@[simp] theorem State.setByte_ctl (b : Byte) (stat : BitVec 5) : (s.setByte b stat).ctl = s.ctl := rfl
@[simp] theorem State.setByte_PL (b : Byte) (stat : BitVec 5) : (s.setByte b stat).PL = s.PL := rfl
@[simp] theorem State.setByte_SV (b : Byte) (stat : BitVec 5) : (s.setByte b stat).SV = s.SV := rfl
@[simp] theorem State.setByte_port (b : Byte) (stat : BitVec 5) : (s.setByte b stat).port = s.port := rfl
@[simp] theorem State.setByte_answer (b : Byte) (stat : BitVec 5) : (s.setByte b stat).answer = s.answer := rfl
@[simp] theorem State.setByte_draws (b : Byte) (stat : BitVec 5) : (s.setByte b stat).draws = s.draws := rfl

/-! ### State.setPrimes -/

@[simp] theorem State.setPrimes_par (primes : List Nat) (cells : List Bool) : (s.setPrimes primes cells).par = s.par := rfl
@[simp] theorem State.setPrimes_ms (primes : List Nat) (cells : List Bool) : (s.setPrimes primes cells).ms = s.ms := rfl
@[simp] theorem State.setPrimes_xg (primes : List Nat) (cells : List Bool) : (s.setPrimes primes cells).xg = s.xg := rfl
@[simp] theorem State.setPrimes_key (primes : List Nat) (cells : List Bool) : (s.setPrimes primes cells).key = s.key := rfl
@[simp] theorem State.setPrimes_cr (primes : List Nat) (cells : List Bool) : (s.setPrimes primes cells).cr = s.cr := rfl
@[simp] theorem State.setPrimes_be (primes : List Nat) (cells : List Bool) : (s.setPrimes primes cells).be = s.be := rfl
@[simp] theorem State.setPrimes_bd (primes : List Nat) (cells : List Bool) : (s.setPrimes primes cells).bd = s.bd := rfl
@[simp] theorem State.setPrimes_sv (primes : List Nat) (cells : List Bool) : (s.setPrimes primes cells).sv = { s.sv with PCOUNT := primes.length } := rfl
@[simp] theorem State.setPrimes_ctl (primes : List Nat) (cells : List Bool) : (s.setPrimes primes cells).ctl = s.ctl := rfl
@[simp] theorem State.setPrimes_PL (primes : List Nat) (cells : List Bool) : (s.setPrimes primes cells).PL = Memory.load primes := rfl
@[simp] theorem State.setPrimes_SV (primes : List Nat) (cells : List Bool) : (s.setPrimes primes cells).SV = Memory.load cells := rfl
@[simp] theorem State.setPrimes_port (primes : List Nat) (cells : List Bool) : (s.setPrimes primes cells).port = s.port := rfl
@[simp] theorem State.setPrimes_answer (primes : List Nat) (cells : List Bool) : (s.setPrimes primes cells).answer = s.answer := rfl
@[simp] theorem State.setPrimes_draws (primes : List Nat) (cells : List Bool) : (s.setPrimes primes cells).draws = s.draws := rfl

/-! ### State.latch -/

@[simp] theorem State.latch_par (c : FaultCode) (w : Word) : (s.latch c w).par = s.par := rfl
@[simp] theorem State.latch_ms (c : FaultCode) (w : Word) : (s.latch c w).ms = s.ms := rfl
@[simp] theorem State.latch_xg (c : FaultCode) (w : Word) : (s.latch c w).xg = s.xg := rfl
@[simp] theorem State.latch_key (c : FaultCode) (w : Word) : (s.latch c w).key = s.key := rfl
@[simp] theorem State.latch_cr (c : FaultCode) (w : Word) : (s.latch c w).cr = s.cr := rfl
@[simp] theorem State.latch_be (c : FaultCode) (w : Word) : (s.latch c w).be = s.be := rfl
@[simp] theorem State.latch_bd (c : FaultCode) (w : Word) : (s.latch c w).bd = s.bd := rfl
@[simp] theorem State.latch_sv (c : FaultCode) (w : Word) : (s.latch c w).sv = s.sv := rfl
@[simp] theorem State.latch_ctl (c : FaultCode) (w : Word) : (s.latch c w).ctl = { s.ctl with STATUS := 1#1, FCODE := c.code, FCMD := w } := rfl
@[simp] theorem State.latch_PL (c : FaultCode) (w : Word) : (s.latch c w).PL = s.PL := rfl
@[simp] theorem State.latch_SV (c : FaultCode) (w : Word) : (s.latch c w).SV = s.SV := rfl
@[simp] theorem State.latch_port (c : FaultCode) (w : Word) : (s.latch c w).port = s.port := rfl
@[simp] theorem State.latch_answer (c : FaultCode) (w : Word) : (s.latch c w).answer = s.answer := rfl
@[simp] theorem State.latch_draws (c : FaultCode) (w : Word) : (s.latch c w).draws = s.draws := rfl

/-! ### reject -/

@[simp] theorem reject_par : (reject s).par = s.par := rfl
@[simp] theorem reject_ms : (reject s).ms = s.ms := rfl
@[simp] theorem reject_xg : (reject s).xg = s.xg := rfl
@[simp] theorem reject_key : (reject s).key = s.key := rfl
@[simp] theorem reject_cr : (reject s).cr = s.cr := rfl
@[simp] theorem reject_be : (reject s).be = s.be := rfl
@[simp] theorem reject_bd : (reject s).bd = s.bd := rfl
@[simp] theorem reject_sv : (reject s).sv = s.sv := rfl
@[simp] theorem reject_ctl : (reject s).ctl = s.ctl := rfl
@[simp] theorem reject_PL : (reject s).PL = s.PL := rfl
@[simp] theorem reject_SV : (reject s).SV = s.SV := rfl
@[simp] theorem reject_port : (reject s).port = s.port := rfl
@[simp] theorem reject_answer : (reject s).answer = .completion .rejected := rfl
@[simp] theorem reject_draws : (reject s).draws = s.draws := rfl

/-! ### finish -/

@[simp] theorem finish_par : (finish s).par = s.par := rfl
@[simp] theorem finish_ms : (finish s).ms = s.ms := rfl
@[simp] theorem finish_xg : (finish s).xg = s.xg := rfl
@[simp] theorem finish_key : (finish s).key = s.key := rfl
@[simp] theorem finish_cr : (finish s).cr = s.cr := rfl
@[simp] theorem finish_be : (finish s).be = s.be := rfl
@[simp] theorem finish_bd : (finish s).bd = s.bd := rfl
@[simp] theorem finish_sv : (finish s).sv = s.sv := rfl
@[simp] theorem finish_ctl : (finish s).ctl = s.ctl := rfl
@[simp] theorem finish_PL : (finish s).PL = s.PL := rfl
@[simp] theorem finish_SV : (finish s).SV = s.SV := rfl
@[simp] theorem finish_port : (finish s).port = s.port := rfl
@[simp] theorem finish_answer : (finish s).answer = .completion .done := rfl
@[simp] theorem finish_draws : (finish s).draws = s.draws := rfl

/-! ### faultEntry -/

@[simp] theorem faultEntry_par (c : FaultCode) (w : Word) : (faultEntry c w s).par = s.par := rfl
@[simp] theorem faultEntry_ms (c : FaultCode) (w : Word) : (faultEntry c w s).ms = s.ms := rfl
@[simp] theorem faultEntry_xg (c : FaultCode) (w : Word) : (faultEntry c w s).xg = s.xg := rfl
@[simp] theorem faultEntry_key (c : FaultCode) (w : Word) : (faultEntry c w s).key = s.key := rfl
@[simp] theorem faultEntry_cr (c : FaultCode) (w : Word) : (faultEntry c w s).cr = s.cr := rfl
@[simp] theorem faultEntry_be (c : FaultCode) (w : Word) : (faultEntry c w s).be = s.be := rfl
@[simp] theorem faultEntry_bd (c : FaultCode) (w : Word) : (faultEntry c w s).bd = s.bd := rfl
@[simp] theorem faultEntry_sv (c : FaultCode) (w : Word) : (faultEntry c w s).sv = s.sv := rfl
@[simp] theorem faultEntry_ctl (c : FaultCode) (w : Word) : (faultEntry c w s).ctl = { s.ctl with STATUS := 1#1, FCODE := c.code, FCMD := w } := rfl
@[simp] theorem faultEntry_PL (c : FaultCode) (w : Word) : (faultEntry c w s).PL = s.PL := rfl
@[simp] theorem faultEntry_SV (c : FaultCode) (w : Word) : (faultEntry c w s).SV = s.SV := rfl
@[simp] theorem faultEntry_port (c : FaultCode) (w : Word) : (faultEntry c w s).port = s.port := rfl
@[simp] theorem faultEntry_answer (c : FaultCode) (w : Word) : (faultEntry c w s).answer = .completion (.fault c) := rfl
@[simp] theorem faultEntry_draws (c : FaultCode) (w : Word) : (faultEntry c w s).draws = s.draws := rfl

end Sys2Proof.Machine
end

