-- ==== Sys2Proof/Laws/Operands.lean ====
section
/-! SUPPORT. What the one operation that writes a register and the one that reads it do (R61, R62), over patterns (R9). -/

namespace Sys2Proof.Machine

/-- A number of N bits is its own pattern. -/
theorem bitPattern_natCast {n v : Nat} (h : v < 2 ^ n) : bitPattern n (v : Int) = v := by
  unfold bitPattern
  rw [← Int.natCast_mod, Int.toNat_natCast, Nat.mod_eq_of_lt h]

/-- The pattern of the integer that a two's-complement pattern denotes is that pattern. -/
theorem bitPattern_signedOf {n v : Nat} (h : v < 2 ^ n) : bitPattern n (signedOf n v) = v := by
  unfold signedOf
  split
  · exact bitPattern_natCast h
  · unfold bitPattern
    rw [Int.sub_emod_right, ← Int.natCast_mod, Int.toNat_natCast, Nat.mod_eq_of_lt h]

/-- A write leaves every other register alone. -/
theorem State.writeReg_regValue_of_ne (s : State) {r r' : RegName} (v : Nat) (h : r' ≠ r) :
    (s.writeReg r v).regValue r' = s.regValue r' := by
  cases r <;> cases r' <;> first | rfl | exact absurd rfl h

/-- A write touches no memory, no parameter and none of the model's own fields. -/
theorem State.writeReg_rest (s : State) (r : RegName) (v : Nat) :
    (s.writeReg r v).par = s.par ∧ (s.writeReg r v).PL = s.PL ∧ (s.writeReg r v).SV = s.SV ∧
      (s.writeReg r v).port = s.port ∧ (s.writeReg r v).answer = s.answer ∧ (s.writeReg r v).draws = s.draws := by
  cases r <;> exact ⟨rfl, rfl, rfl, rfl, rfl, rfl⟩

/-- Which transactions are presented and what was answered is no register. -/
@[simp] theorem State.regValue_answering (s : State) (a : Answer) (r : RegName) : (s.answering a).regValue r = s.regValue r := by
  cases r <;> rfl

@[simp] theorem State.regValue_withPort (s : State) (p : List Transaction) (r : RegName) :
    (s.withPort p).regValue r = s.regValue r := by
  cases r <;> rfl

end Sys2Proof.Machine
end

