-- ==== Sys2Proof/Laws/Ops.lean ====
section
/-! SUPPORT. One lemma per shared operation, saying once what it can do: the memories, the register map, how a command
ends, and the port. -/

namespace Sys2Proof.Machine

/-! ### Memories -/

@[simp] theorem Memory.read_nil {α : Type} (k : Nat) : Memory.read ([] : Memory α) k = none := rfl

theorem Memory.read_loadFrom {α : Type} (vs : List α) (base k : Nat) :
    Memory.read (Memory.loadFrom base vs) k = if base ≤ k then vs[k - base]? else none := by
  induction vs generalizing base with
  | nil => simp [Memory.loadFrom]
  | cons v vs ih =>
    simp only [Memory.loadFrom, Memory.read, ih]
    rcases lt_trichotomy base k with h | rfl | h
    · have : k - base = (k - (base + 1)) + 1 := by omega
      simp [h.ne, h.le, Nat.succ_le_iff.mpr h, this]
    · simp
    · simp [h.ne', Nat.not_le.mpr h, Nat.not_le.mpr (Nat.lt_succ_of_lt h)]

/-- What a load leaves in each cell: the value given for it, and nothing specified elsewhere. -/
theorem Memory.read_load {α : Type} (vs : List α) (k : Nat) : Memory.read (Memory.load vs) k = vs[k]? := by
  simp [Memory.load, Memory.read_loadFrom]

theorem Memory.wf_loadFrom {α : Type} (vs : List α) (base : Nat) : Memory.wf (Memory.loadFrom base vs) = true := by
  induction vs generalizing base with
  | nil => rfl
  | cons v vs ih =>
    cases vs with
    | nil => rfl
    | cons w ws =>
      have := ih (base + 1)
      simp only [Memory.loadFrom, Memory.wf] at this ⊢
      simp [this]

/-- A load, the one operation that writes a memory, gives the canonical form. -/
theorem Memory.wf_load {α : Type} (vs : List α) : Memory.wf (Memory.load vs) = true := Memory.wf_loadFrom vs 0

/-- The memories of the state after reset are in canonical form. -/
theorem Memory.wf_reset (p : Config.Params) :
    Memory.wf (State.resetWith p).PL = true ∧ Memory.wf (State.resetWith p).SV = true := ⟨rfl, rfl⟩

/-! ### The register map -/

theorem RegName.mem_all (r : RegName) : r ∈ RegName.all := by cases r <;> decide

/-- Every register is found at its index (R21). -/
@[simp] theorem regAt_index (r : RegName) : regAt r.index = some r := by cases r <;> decide

/-- A register found at an index has that index (R21). -/
theorem regAt_eq_some {i : RegIndex} {r : RegName} (h : regAt i = some r) : r.index = i := by
  have := List.find?_some h
  simpa using this

/-- An index that no register has is unmapped (R54). -/
theorem regAt_eq_none {i : RegIndex} (h : ∀ r : RegName, r.index ≠ i) : regAt i = none := by
  simp [regAt, h]

/-- The host's write of a read-only register changes nothing (R54). -/
theorem State.writeReg_readOnly (s : State) (r : RegName) (v : Nat) (h : r.writable = false) : s.writeReg r v = s := by
  cases r <;> first | rfl | cases h

/-! ### How a command ends -/

/-- The three ways a command ends (R180, R193). -/
theorem complete_cases {i : Instr} {s t : State} {r : Except FaultCode State} (h : complete i s r = .next t) :
    (s.faulted ∧ t = reject s) ∨
    (¬ s.faulted ∧ ∃ c, r = .error c ∧ t = faultEntry c (encode i) s) ∨
    (¬ s.faulted ∧ ∃ u, r = .ok u ∧ t = finish u) := by
  unfold complete at h
  split at h
  · exact .inl ⟨‹_›, by simpa using h.symm⟩
  · cases r with
    | error c => exact .inr (.inl ⟨‹_›, c, rfl, by simpa using h.symm⟩)
    | ok u => exact .inr (.inr ⟨‹_›, u, rfl, by simpa using h.symm⟩)

theorem complete_faulted {i : Instr} {s : State} {r : Except FaultCode State} (h : s.faulted) :
    complete i s r = .next (reject s) := by simp [complete, h]

theorem complete_error {i : Instr} {s : State} {c : FaultCode} (h : ¬ s.faulted) :
    complete i s (.error c) = .next (faultEntry c (encode i) s) := by simp [complete, h]

theorem complete_ok {i : Instr} {s t : State} (h : ¬ s.faulted) : complete i s (.ok t) = .next (finish t) := by
  simp [complete, h]

/-- The rule of each command: what it computes from the state at the issue, before the completion. -/
def ruleOf : Instr → State → Except FaultCode State
  | .sieve k => sieveRule k
  | .xgcd k => xgcdRule k
  | .keyset => keysetRule
  | .modsqr => fun s => modRule (s.ms.MS_A * s.ms.MS_A % s.ms.MS_M) s
  | .modmul => fun s => modRule (s.ms.MS_A * s.ms.MS_B % s.ms.MS_M) s
  | .modexp => fun s => modRule (modexp s.ms.MS_A s.ms.MS_E s.ms.MS_M) s
  | .crtsqrt => crtsqrtRule
  | .benc => bencRule
  | .bdec => bdecRule

/-- Every command is its rule, completed. -/
theorem exec_eq (i : Instr) (s : State) : exec i s = complete i s (ruleOf i s) := by cases i <;> rfl

/-- Every command answers a next state. -/
theorem exec_next (i : Instr) (s : State) : ∃ t, exec i s = .next t := by
  rw [exec_eq]
  unfold complete
  split
  · exact ⟨_, rfl⟩
  · cases ruleOf i s <;> exact ⟨_, rfl⟩

/-! ### What each rule gives -/

theorem sieveRule_ok {k : Bool} {s t : State} (h : sieveRule k s = .ok t) :
    s.sv.SV_MAX < s.par.S ∧ (k = true → 2 ≤ (primes34 s.sv.SV_MIN s.sv.SV_MAX).length) ∧
      t = s.setPrimes (primes34 s.sv.SV_MIN s.sv.SV_MAX) (sieve s.sv.SV_MAX) := by
  simp only [sieveRule] at h
  split at h
  · cases h
  · split at h
    · cases h
    · rename_i h1 h2
      exact ⟨by omega, fun hk => by by_contra hc; exact h2 ⟨hk, by omega⟩, by simpa using h.symm⟩

theorem xgcdRule_ok {k : Bool} {s t : State} (h : xgcdRule k s = .ok t) :
    (k = true → (xgcd s.xg.XG_A s.xg.XG_B).g = 1) ∧
      t = s.setXg (xgcd s.xg.XG_A s.xg.XG_B).g (xgcd s.xg.XG_A s.xg.XG_B).x (xgcd s.xg.XG_A s.xg.XG_B).y := by
  simp only [xgcdRule] at h
  split at h
  · cases h
  · rename_i h1
    exact ⟨fun hk => by by_contra hc; exact h1 ⟨hk, hc⟩, by simpa using h.symm⟩

theorem keysetRule_ok {s t : State} (h : keysetRule s = .ok t) :
    s.keyCongruent ∧ (xgcd s.key.K_P s.key.K_Q).g = 1 ∧
      t = s.setBezout (xgcd s.key.K_P s.key.K_Q).x (xgcd s.key.K_P s.key.K_Q).y := by
  simp only [keysetRule] at h
  split at h
  · cases h
  · split at h
    · cases h
    · rename_i h1 h2
      exact ⟨not_not.mp h1, not_not.mp h2, by simpa using h.symm⟩

theorem modRule_ok {v : Nat} {s t : State} (h : modRule v s = .ok t) : s.ms.MS_M ≠ 0 ∧ t = s.setMsR v := by
  simp only [modRule] at h
  split at h
  · cases h
  · exact ⟨‹_›, by simpa using h.symm⟩

theorem keyTests_ok {s : State} {u : Unit} (h : keyTests s = .ok u) :
    s.keyCongruent ∧ s.key.K_P * s.key.K_Q < 2 ^ s.par.W := by
  simp only [keyTests] at h
  split at h
  · cases h
  · split at h
    · cases h
    · rename_i h1 h2
      exact ⟨not_not.mp h1, Nat.lt_of_not_le h2⟩

theorem crtsqrtRule_ok {s t : State} (h : crtsqrtRule s = .ok t) :
    s.keyCongruent ∧ s.key.K_P * s.key.K_Q < 2 ^ s.par.W ∧ t = s.withCandidates s.cr.CR_C := by
  simp only [crtsqrtRule] at h
  split at h
  · cases h
  · rename_i hk
    exact ⟨(keyTests_ok hk).1, (keyTests_ok hk).2, by simpa using h.symm⟩

theorem bencRule_ok {s t : State} (h : bencRule s = .ok t) :
    s.be.BE_N ≠ 0 ∧
      t = s.setBlock (BitVec.ofNat 16 (REncode s.be.BE_BYTE.toNat))
        (BitVec.ofNat 32 (REncode s.be.BE_BYTE.toNat * REncode s.be.BE_BYTE.toNat % s.be.BE_N)) := by
  simp only [bencRule] at h
  split at h
  · cases h
  · split at h
    · cases h
    · exact ⟨‹_›, by simpa using h.symm⟩

theorem bdecRule_ok {s t : State} (h : bdecRule s = .ok t) :
    s.keyCongruent ∧ s.key.K_P * s.key.K_Q < 2 ^ s.par.W ∧
      (s.strict → (select4 (s.candidates s.bd.BD_BLK.toNat)).isHit = true) ∧
      t = ((s.withCandidates s.bd.BD_BLK.toNat).setCrC s.bd.BD_BLK.toNat).setByte
        ((select4 (s.candidates s.bd.BD_BLK.toNat)).byte s.ctl.PHOLD) (select4 (s.candidates s.bd.BD_BLK.toNat)).stat := by
  simp only [bdecRule] at h
  split at h
  · cases h
  · rename_i hk
    split at h
    · cases h
    · rename_i h1
      exact ⟨(keyTests_ok hk).1, (keyTests_ok hk).2,
        fun hs => by simpa using fun hf => h1 ⟨hf, hs⟩, by simpa using h.symm⟩

/-! ### The faults each rule raises, in the order of R193 -/

theorem sieveRule_error {k : Bool} {s : State} {c : FaultCode} (h : sieveRule k s = .error c) :
    (c = .SIEVE_RANGE ∧ s.par.S ≤ s.sv.SV_MAX) ∨
    (c = .GEN_POOL ∧ s.sv.SV_MAX < s.par.S ∧ k = true ∧ (primes34 s.sv.SV_MIN s.sv.SV_MAX).length < 2) := by
  simp only [sieveRule] at h
  split at h
  · cases h; simp_all
  · split at h
    · cases h; simp_all
    · cases h

theorem xgcdRule_error {k : Bool} {s : State} {c : FaultCode} (h : xgcdRule k s = .error c) :
    c = .KEY_NOT_COPRIME ∧ k = true ∧ (xgcd s.xg.XG_A s.xg.XG_B).g ≠ 1 := by
  simp only [xgcdRule] at h
  split at h
  · cases h; simp_all
  · cases h

theorem keysetRule_error {s : State} {c : FaultCode} (h : keysetRule s = .error c) :
    (c = .KEY_CONGRUENCE ∧ ¬ s.keyCongruent) ∨
    (c = .KEY_NOT_COPRIME ∧ s.keyCongruent ∧ (xgcd s.key.K_P s.key.K_Q).g ≠ 1) := by
  simp only [keysetRule] at h
  split at h
  · cases h; exact .inl ⟨rfl, ‹_›⟩
  · split at h
    · cases h; exact .inr ⟨rfl, not_not.mp ‹_›, ‹_›⟩
    · cases h

theorem modRule_error {v : Nat} {s : State} {c : FaultCode} (h : modRule v s = .error c) :
    c = .MOD_ZERO ∧ s.ms.MS_M = 0 := by
  simp only [modRule] at h
  split at h
  · cases h; exact ⟨rfl, ‹_›⟩
  · cases h

theorem keyTests_error {s : State} {c : FaultCode} (h : keyTests s = .error c) :
    (c = .KEY_CONGRUENCE ∧ ¬ s.keyCongruent) ∨
    (c = .WIDTH ∧ s.keyCongruent ∧ 2 ^ s.par.W ≤ s.key.K_P * s.key.K_Q) := by
  simp only [keyTests] at h
  split at h
  · cases h; exact .inl ⟨rfl, ‹_›⟩
  · split at h
    · cases h; exact .inr ⟨rfl, not_not.mp ‹_›, ‹_›⟩
    · cases h

theorem crtsqrtRule_error {s : State} {c : FaultCode} (h : crtsqrtRule s = .error c) :
    (c = .KEY_CONGRUENCE ∧ ¬ s.keyCongruent) ∨
    (c = .WIDTH ∧ s.keyCongruent ∧ 2 ^ s.par.W ≤ s.key.K_P * s.key.K_Q) := by
  simp only [crtsqrtRule] at h
  split at h
  · cases h; exact keyTests_error ‹_›
  · cases h

theorem bencRule_error {s : State} {c : FaultCode} (h : bencRule s = .error c) :
    (c = .MOD_ZERO ∧ s.be.BE_N = 0) ∨
    (c = .BLOCK_OVERFLOW ∧ s.be.BE_N ≠ 0 ∧
      2 ^ 32 ≤ REncode s.be.BE_BYTE.toNat * REncode s.be.BE_BYTE.toNat % s.be.BE_N) := by
  simp only [bencRule] at h
  split at h
  · cases h; exact .inl ⟨rfl, ‹_›⟩
  · split at h
    · cases h; exact .inr ⟨rfl, ‹_›, ‹_›⟩
    · cases h

theorem bdecRule_error {s : State} {c : FaultCode} (h : bdecRule s = .error c) :
    (c = .KEY_CONGRUENCE ∧ ¬ s.keyCongruent) ∨
    (c = .WIDTH ∧ s.keyCongruent ∧ 2 ^ s.par.W ≤ s.key.K_P * s.key.K_Q) ∨
    (c = .DECODE_MISS ∧ s.keyCongruent ∧ s.key.K_P * s.key.K_Q < 2 ^ s.par.W ∧ s.strict ∧
      (select4 (s.candidates s.bd.BD_BLK.toNat)).isHit = false) := by
  simp only [bdecRule] at h
  split at h
  · cases h
    rcases keyTests_error ‹_› with h | h
    · exact .inl h
    · exact .inr (.inl h)
  · rename_i hk
    split at h
    · rename_i h1
      cases h
      exact .inr (.inr ⟨rfl, (keyTests_ok hk).1, (keyTests_ok hk).2, h1.2, h1.1⟩)
    · cases h

/-! ### When each rule completes -/

theorem sieveRule_done {k : Bool} {s : State} (h : s.sv.SV_MAX < s.par.S)
    (hk : k = true → 2 ≤ (primes34 s.sv.SV_MIN s.sv.SV_MAX).length) :
    sieveRule k s = .ok (s.setPrimes (primes34 s.sv.SV_MIN s.sv.SV_MAX) (sieve s.sv.SV_MAX)) := by
  have h1 : ¬ s.par.S ≤ s.sv.SV_MAX := Nat.not_le.mpr h
  have h2 : ¬ (k = true ∧ (primes34 s.sv.SV_MIN s.sv.SV_MAX).length < 2) := fun ⟨a, b⟩ => Nat.not_le.mpr b (hk a)
  simp only [sieveRule, if_neg h1, if_neg h2]

theorem xgcdRule_done {k : Bool} {s : State} (hk : k = true → (xgcd s.xg.XG_A s.xg.XG_B).g = 1) :
    xgcdRule k s = .ok (s.setXg (xgcd s.xg.XG_A s.xg.XG_B).g (xgcd s.xg.XG_A s.xg.XG_B).x
      (xgcd s.xg.XG_A s.xg.XG_B).y) := by
  have h1 : ¬ (k = true ∧ (xgcd s.xg.XG_A s.xg.XG_B).g ≠ 1) := fun ⟨a, b⟩ => b (hk a)
  simp only [xgcdRule, if_neg h1]

theorem keysetRule_done {s : State} (h : s.keyCongruent) (hg : (xgcd s.key.K_P s.key.K_Q).g = 1) :
    keysetRule s = .ok (s.setBezout (xgcd s.key.K_P s.key.K_Q).x (xgcd s.key.K_P s.key.K_Q).y) := by
  simp only [keysetRule, if_neg (not_not.mpr h), if_neg (not_not.mpr hg)]

theorem modRule_done {v : Nat} {s : State} (h : s.ms.MS_M ≠ 0) : modRule v s = .ok (s.setMsR v) := by
  simp only [modRule, if_neg h]

theorem keyTests_done {s : State} (h : s.keyCongruent) (hw : s.key.K_P * s.key.K_Q < 2 ^ s.par.W) :
    keyTests s = .ok () := by
  simp only [keyTests, if_neg (not_not.mpr h), if_neg (Nat.not_le.mpr hw)]

theorem crtsqrtRule_done {s : State} (h : s.keyCongruent) (hw : s.key.K_P * s.key.K_Q < 2 ^ s.par.W) :
    crtsqrtRule s = .ok (s.withCandidates s.cr.CR_C) := by
  simp only [crtsqrtRule, keyTests_done h hw]

theorem bencRule_done {s : State} (h : s.be.BE_N ≠ 0)
    (hc : REncode s.be.BE_BYTE.toNat * REncode s.be.BE_BYTE.toNat % s.be.BE_N < 2 ^ 32) :
    bencRule s = .ok (s.setBlock (BitVec.ofNat 16 (REncode s.be.BE_BYTE.toNat))
      (BitVec.ofNat 32 (REncode s.be.BE_BYTE.toNat * REncode s.be.BE_BYTE.toNat % s.be.BE_N))) := by
  simp only [bencRule, if_neg h, if_neg (Nat.not_le.mpr hc)]

theorem bdecRule_done {s : State} (h : s.keyCongruent) (hw : s.key.K_P * s.key.K_Q < 2 ^ s.par.W)
    (hs : s.strict → (select4 (s.candidates s.bd.BD_BLK.toNat)).isHit = true) :
    bdecRule s = .ok (((s.withCandidates s.bd.BD_BLK.toNat).setCrC s.bd.BD_BLK.toNat).setByte
      ((select4 (s.candidates s.bd.BD_BLK.toNat)).byte s.ctl.PHOLD) (select4 (s.candidates s.bd.BD_BLK.toNat)).stat) := by
  have h1 : ¬ ((select4 (s.candidates s.bd.BD_BLK.toNat)).isHit = false ∧ s.strict) := fun ⟨a, b⟩ => by
    rw [hs b] at a; cases a
  simp only [bdecRule, keyTests_done h hw, if_neg h1]

/-! ### The port -/

@[simp] theorem serve_nil {s : State} (h : s.port = []) : serve s = .next s := by simp [serve, h]

theorem serve_cons {s : State} {t : Transaction} {rest : List Transaction} (h : s.port = t :: rest) :
    serve s = transact t (s.withPort rest) := by simp [serve, h]

/-- One step on a presented transaction. -/
theorem step_cons {s : State} {t : Transaction} {rest : List Transaction} (h : s.port = t :: rest) :
    step s = transact t (s.withPort rest) := serve_cons h

theorem transact_expressible {s : State} {t : Transaction} (h : t.expressible s.par = true) :
    transact t s = perform t s := by simp [transact, h]

/-- A presented transaction that the port can express is performed on the state with the rest presented. -/
theorem step_performs {s : State} {t : Transaction} {rest : List Transaction} (h : s.port = t :: rest)
    (he : t.expressible s.par = true) : step s = perform t (s.withPort rest) :=
  (step_cons h).trans (transact_expressible (s := s.withPort rest) he)

theorem State.withPort_faulted (s : State) (p : List Transaction) : (s.withPort p).faulted ↔ s.faulted := Iff.rfl

/-- The ways an `ISSUE` ends (R180). -/
theorem doIssue_cases {w : Word} {s : State} :
    (s.faulted ∧ doIssue w s = .next (reject s)) ∨
    (¬ s.faulted ∧ (∃ e, decode w = .error e) ∧ doIssue w s = .next (faultEntry .ILLEGAL_CMD w s)) ∨
    (¬ s.faulted ∧ ∃ i, decode w = .ok i ∧ doIssue w s = exec i s) := by
  by_cases hf : s.faulted
  · exact .inl ⟨hf, by simp [doIssue, hf]⟩
  · cases hd : decode w with
    | error e => exact .inr (.inl ⟨hf, ⟨e, rfl⟩, by simp [doIssue, hf, hd]⟩)
    | ok i => exact .inr (.inr ⟨hf, i, rfl, by simp [doIssue, hf, hd]⟩)

/-- What one step can do: hold, or perform the oldest transaction. -/
theorem step_cases {s t : State} (h : step s = .next t) :
    (s.port = [] ∧ t = s) ∨
    ∃ x rest, s.port = x :: rest ∧ x.expressible s.par = true ∧ perform x (s.withPort rest) = .next t := by
  cases hp : s.port with
  | nil => exact .inl ⟨rfl, by simpa [step, serve, hp] using h.symm⟩
  | cons x rest =>
    have hs : transact x (s.withPort rest) = .next t := by rwa [← step_cons hp]
    unfold transact at hs
    split at hs
    · exact .inr ⟨x, rest, rfl, ‹_›, hs⟩
    · cases hs

end Sys2Proof.Machine
end

