-- ==== Sys2Proof/Laws/PerInstr.lean ====
section
/-! SUPPORT. Statements made per command: the word of every command is well formed and selects its own row of the opcode
map (R82). -/

namespace Sys2Proof.Laws.EncodesItsRow

/-- The command's fields are legal, and its word selects exactly the rows of R82 that bear its mnemonic. -/
def Statement (i : Instr) : Prop :=
  i.wf = true ∧ opcodeMap.filter (fun r => r.selects (encode i)) = opcodeMap.filter (fun r => r.mnemonic == i.mnemonic)

theorem sieve (k : Bool) : Statement (.sieve k) := by cases k <;> exact ⟨by decide, by decide⟩
theorem xgcd (k : Bool) : Statement (.xgcd k) := by cases k <;> exact ⟨by decide, by decide⟩
theorem keyset : Statement .keyset := ⟨by decide, by decide⟩
theorem modsqr : Statement .modsqr := ⟨by decide, by decide⟩
theorem modmul : Statement .modmul := ⟨by decide, by decide⟩
theorem modexp : Statement .modexp := ⟨by decide, by decide⟩
theorem crtsqrt : Statement .crtsqrt := ⟨by decide, by decide⟩
theorem benc : Statement .benc := ⟨by decide, by decide⟩
theorem bdec : Statement .bdec := ⟨by decide, by decide⟩

end Sys2Proof.Laws.EncodesItsRow
end

