-- ==== Sys2Proof/Laws/Stream.lean ====
section
/-! SUPPORT. What a host request does, so that no proof about the stream protocol unfolds the step. -/

namespace Sys2Proof.Machine

/-- A request that the port can express and that performs answers what the core answers; the port is as before it. -/
theorem request_eq {t : Transaction} {s u : State} (he : t.expressible s.par = true) (h : perform t s = .next u) :
    request t s = .ok u.answer u := by
  have : step (s.withPort (t :: s.port)) = .next u := (step_performs (s := s.withPort (t :: s.port)) rfl he).trans h
  simp [request, this]

theorem hostWr_eq {s : State} (r : RegName) (v : Nat) (hf : ¬ s.faulted) (hv : v < 2 ^ r.width s.par) :
    hostWr r v s = .ok .nothing ((s.writeReg r v).answering .nothing) := by
  unfold hostWr
  rw [request_eq (u := (s.writeReg r v).answering .nothing)]
  · rfl
  · simp [Transaction.expressible, hv]
  · simp [perform, doWr, hf]

theorem hostRd_eq (s : State) (r : RegName) : hostRd r s = .ok (s.readReg r) (s.answering (.value (s.readReg r))) := by
  unfold hostRd
  rw [request_eq (u := s.answering (.value (s.readReg r))) rfl]
  · rfl
  · simp [perform, doRd]

end Sys2Proof.Machine
end

