-- ==== Sys2Proof/Tests/Slice0.lean ====
section
/-! SUPPORT. The model's own tests. Expected values come from 95_test_vectors.md (tables V1 to V10, programs P2 to P6) or
from the encoding of R81 and R82, never from the model. The last part shows, for every obligation with hypotheses, a concrete
state and operands that meet them. -/

namespace Sys2Proof.Tests

open Sys2Proof Sys2Proof.Machine

/-! ### Well-formedness: one ill-formed term per check -/

theorem test_wf_zero_refused : Fields.wf ⟨1#23, 0#1, 0x01#8⟩ = false ∧ Fields.zeroOk ⟨1#23, 0#1, 0x01#8⟩ = false := by decide
theorem test_wf_opc_low_refused : Fields.wf ⟨0#23, 0#1, 0x00#8⟩ = false ∧ Fields.opcOk ⟨0#23, 0#1, 0x00#8⟩ = false := by decide
theorem test_wf_opc_high_refused : Fields.wf ⟨0#23, 0#1, 0x0A#8⟩ = false ∧ Fields.opcOk ⟨0#23, 0#1, 0x0A#8⟩ = false := by decide
theorem test_wf_k_refused : Fields.wf ⟨0#23, 1#1, 0x03#8⟩ = false ∧ Fields.kOk ⟨0#23, 1#1, 0x03#8⟩ = false := by decide
theorem test_wf_fields_accepted : Fields.wf ⟨0#23, 1#1, 0x02#8⟩ = true ∧ Fields.wf ⟨0#23, 0#1, 0x09#8⟩ = true := by decide
theorem test_params_width_refused : Config.Params.wf ⟨31, 4⟩ = false ∧ Config.Params.widthOk ⟨31, 4⟩ = false := by decide
theorem test_params_small_refused : Config.Params.wf ⟨32, 0⟩ = false ∧ Config.Params.sieveOk ⟨32, 0⟩ = false := by decide
theorem test_params_multiple_refused : Config.Params.wf ⟨32, 6⟩ = false ∧ Config.Params.multipleOk ⟨32, 6⟩ = false := by decide
theorem test_params_address_refused :
    Config.Params.wf ⟨32, 2 ^ 32 + 4⟩ = false ∧ Config.Params.addressOk ⟨32, 2 ^ 32 + 4⟩ = false := by decide
theorem test_params_accepted : Config.Params.wf ⟨32, 4⟩ = true ∧ Config.Params.wf ⟨64, 65536⟩ = true := by decide
theorem test_wr_value_refused : Transaction.expressible ⟨32, 4⟩ (.wr 0x38#6 2) = false := by decide
theorem test_rdpl_index_refused : Transaction.expressible ⟨32, 4⟩ (.rdpl (2 ^ 32)) = false := by decide

/-! ### Decoding: the words of R82 written out bit by bit -/

theorem test_decode_sieve : decode 0b00000000000000000000000000000001#32 = .ok (.sieve false) := by decide
theorem test_decode_sieve_k : decode 0b00000000000000000000000100000001#32 = .ok (.sieve true) := by decide
theorem test_decode_xgcd : decode 0b00000000000000000000000000000010#32 = .ok (.xgcd false) := by decide
theorem test_decode_xgcd_k : decode 0b00000000000000000000000100000010#32 = .ok (.xgcd true) := by decide
theorem test_decode_keyset : decode 0b00000000000000000000000000000011#32 = .ok .keyset := by decide
theorem test_decode_modsqr : decode 0b00000000000000000000000000000100#32 = .ok .modsqr := by decide
theorem test_decode_modmul : decode 0b00000000000000000000000000000101#32 = .ok .modmul := by decide
theorem test_decode_modexp : decode 0b00000000000000000000000000000110#32 = .ok .modexp := by decide
theorem test_decode_crtsqrt : decode 0b00000000000000000000000000000111#32 = .ok .crtsqrt := by decide
theorem test_decode_benc : decode 0b00000000000000000000000000001000#32 = .ok .benc := by decide
theorem test_decode_bdec : decode 0b00000000000000000000000000001001#32 = .ok .bdec := by decide

/-- The illegal words of table V9. -/
theorem test_decode_illegal :
    [0x00000000#32, 0x0000000A#32, 0x000000FF#32, 0x00000100#32, 0x00000103#32, 0x00000109#32, 0x00000201#32,
      0x80000004#32, 0xFFFFFFFF#32].map decode =
    [.error .opcode, .error .opcode, .error .opcode, .error .opcode, .error .kBit, .error .kBit, .error .zeroBits,
      .error .zeroBits, .error .zeroBits] := by decide

theorem test_encode_words :
    [Instr.sieve true, .xgcd true, .keyset, .bdec].map encode = [0x101#32, 0x102#32, 0x003#32, 0x009#32] := by decide

theorem test_table_word :
    decodeTableWord 32 0x101 = some (.sieve true) ∧ decodeTableWord 32 0x103 = none ∧
      decodeTableWord 32 0x8 = some .benc := by decide

/-! ### One command on a small state -/

/-- The state a command leaves, from a state of W = 64 and S = 65536. -/
def after (i : Instr) (s : State) : State :=
  match exec i s with
  | .next t => t
  | .fault _ => s
  | .refused _ => s

def keyState (p q : Nat) (a b : Int) : State := { State.reset with key := ⟨p, q, a, b⟩ }

/-- V1, row (0, 50). -/
theorem test_sieve :
    let t := after (.sieve false) { State.reset with sv := ⟨0, 50, 99⟩ }
    t.answer = .completion .done ∧ t.sv.PCOUNT = 8 ∧
      (List.range 9).map t.PL.read =
        [some 3, some 7, some 11, some 19, some 23, some 31, some 43, some 47, none] := by decide +kernel

/-- V1, row (0, 3) of `SIEVE.K`: one prime only; the latch is set, the list is not. -/
theorem test_sieve_pool :
    let t := after (.sieve true) { State.reset with sv := ⟨0, 3, 99⟩ }
    t.answer = .completion (.fault .GEN_POOL) ∧ t.sv.PCOUNT = 99 ∧ t.ctl.FCODE = 2#4 ∧ t.ctl.FCMD = 0x101#32 := by
  decide +kernel

/-- V2, rows (240, 46) and, for `XGCD.K`, (12, 18). -/
theorem test_xgcd : (after (.xgcd false) { State.reset with xg := ⟨240, 46, 0, 0, 0⟩ }).xg = ⟨240, 46, 2, -9, 47⟩ := by
  decide +kernel
theorem test_xgcd_not_coprime :
    let t := after (.xgcd true) { State.reset with xg := ⟨12, 18, 5, 5, 5⟩ }
    t.answer = .completion (.fault .KEY_NOT_COPRIME) ∧ t.xg = ⟨12, 18, 5, 5, 5⟩ := by decide +kernel

/-- P2 and V11: a valid pair, and the congruence tested before the gcd. -/
theorem test_keyset : (after .keyset (keyState 251 263 0 0)).key = ⟨251, 263, -22, 21⟩ := by decide +kernel
theorem test_keyset_order : (after .keyset (keyState 13 13 0 0)).answer = .completion (.fault .KEY_CONGRUENCE) := by
  decide +kernel

/-- V4: the exact double-width square, the product, the power, 0 to the 0, and a zero modulus. -/
theorem test_modsqr :
    (after .modsqr { State.reset with ms := ⟨2 ^ 64 - 1, 0, 0, 2 ^ 64 - 2, 0⟩ }).ms.MS_R = 1 := by decide +kernel
theorem test_modsqr_zero :
    let t := after .modsqr { State.reset with ms := ⟨12, 0, 0, 0, 77⟩ }
    t.answer = .completion (.fault .MOD_ZERO) ∧ t.ms.MS_R = 77 := by decide +kernel
theorem test_modmul :
    (after .modmul { State.reset with ms := ⟨251, 263, 0, 2 ^ 64 - 1, 0⟩ }).ms.MS_R = 66013 := by decide +kernel
theorem test_modexp :
    (after .modexp { State.reset with ms := ⟨2, 0, 2 ^ 64 - 1, 1000000007, 0⟩ }).ms.MS_R = 981530768 := by decide +kernel
theorem test_modexp_zero_zero : (after .modexp { State.reset with ms := ⟨0, 0, 0, 7, 0⟩ }).ms.MS_R = 1 := by
  decide +kernel

/-- V6: the candidates of 207, and a modulus that does not fit. -/
theorem test_crtsqrt :
    (after .crtsqrt { keyState 11 19 7 (-4) with cr := ⟨207, 0, 0, 0, 0, 0, 0⟩ }).cr = ⟨207, 3, 6, 25, 63, 184, 146⟩ := by
  decide +kernel
theorem test_crtsqrt_width :
    (after .crtsqrt (keyState 4294967311 4294967291 0 0)).answer = .completion (.fault .WIDTH) := by decide +kernel

/-- V7: byte 65 under 209, and byte 255 under 2^64 - 1. -/
theorem test_benc :
    (after .benc { State.reset with be := ⟨65#8, 209, 0#16, 0#32⟩ }).be = ⟨65#8, 209, 8385#16, 0x000000CF#32⟩ := by
  decide +kernel
theorem test_benc_largest :
    (after .benc { State.reset with be := ⟨255#8, 2 ^ 64 - 1, 0#16, 0#32⟩ }).be.BE_BLK = 0xFFFE0001#32 := by decide +kernel

/-- V8: the example of S6, and a first match out of the byte range. -/
theorem test_bdec :
    let t := after .bdec { keyState 11 19 7 (-4) with bd := ⟨0x000000CF#32, 0#8, 0#5⟩ }
    t.cr = ⟨207, 3, 6, 25, 63, 184, 146⟩ ∧ t.bd = ⟨0x000000CF#32, 0x07#8, 0b00101#5⟩ := by decide +kernel
theorem test_bdec_range :
    (after .bdec { keyState 499 503 (-126) 125 with bd := ⟨0x00008B8E#32, 0#8, 0#5⟩ }).bd =
      ⟨0x00008B8E#32, 0x3F#8, 0b01011#5⟩ := by decide +kernel

/-! ### The host port -/

/-- The state one step leaves. -/
def next (s : State) : State :=
  match step s with
  | .next t => t
  | .fault _ => s
  | .refused _ => s

/-- V10: -22 to `K_A` and back, as its 65-bit pattern. -/
theorem test_wr_rd_signed :
    let t := next { State.reset with port := [.wr 0x12#6 0x1FFFFFFFFFFFFFFEA, .rd 0x12#6] }
    t.key.K_A = -22 ∧ (next t).answer = .value 0x1FFFFFFFFFFFFFFEA := by decide +kernel

/-- V10: a read-only register keeps its value; an unmapped index reads 0. -/
theorem test_wr_read_only : (next { State.reset with port := [.wr 0x04#6 5] }).ms.MS_R = 0 := by decide +kernel
theorem test_rd_unmapped : (next { State.reset with port := [.rd 0x05#6] }).answer = .value 0 := by decide +kernel

/-- P4: the bad key, the FAULTED state, and `RESET`. -/
theorem test_faulted :
    let s := after .keyset { keyState 13 19 0 0 with port := [.wr 0x10#6 11, .issue 0xFFFFFFFF#32, .reset] }
    s.ctl.STATUS = 1#1 ∧ s.ctl.FCODE = 3#4 ∧ s.ctl.FCMD = 3#32 ∧ (next s).key.K_P = 13 ∧
      (next (next s)).answer = .completion .rejected ∧ (next (next s)).ctl.FCMD = 3#32 ∧
      (next (next (next s))).ctl = ⟨0#1, 0x3F#8, 0#1, 0#4, 0#32⟩ := by decide +kernel

/-- The next command after reset runs from the port: P6's `MODEXP` on a core just reset stops at its zero modulus. -/
theorem test_fetch :
    (next (State.reset.withFetchWord 32 6)).answer = .completion (.fault .MOD_ZERO) ∧
      (next (State.reset.withFetchWord 32 0)).answer = .completion (.fault .ILLEGAL_CMD) := by decide +kernel

/-! ### Witnesses: what meets the hypotheses of each statement -/

/-- A primality proof from the divisors below. -/
theorem isPrime_of {i : Nat} (h : 2 ≤ i ∧ ∀ d : Fin i, 1 < d.val → ¬ d.val ∣ i) : IsPrime i :=
  ⟨h.1, fun d h1 h2 => h.2 ⟨d, h2⟩ h1⟩

theorem prime_3 : IsPrime 3 := isPrime_of (by decide)
theorem prime_5 : IsPrime 5 := isPrime_of (by decide)
theorem prime_7 : IsPrime 7 := isPrime_of (by decide)
theorem prime_11 : IsPrime 11 := isPrime_of (by decide)
theorem prime_19 : IsPrime 19 := isPrime_of (by decide)
theorem prime_251 : IsPrime 251 := isPrime_of (by decide +kernel)
theorem prime_263 : IsPrime 263 := isPrime_of (by decide +kernel)

/-- A machine of the smallest width, with eight sieve cells. -/
def small : State := State.resetWith ⟨32, 8⟩

/-- `small`, FAULTED. -/
def smallFaulted : State := { small with ctl := ⟨0#1, 0x3F#8, 1#1, 3#4, 3#32⟩ }

theorem witness_DecodeEncodeInverse :
    (Instr.sieve true).wf = true ∧ Instr.bdec.wf = true ∧ decode 0x101#32 = .ok (.sieve true) := by decide

theorem witness_ElevenLegalWords :
    (∃ r ∈ opcodeMap, r.selects 0x102#32 = true) ∧ (∃ i, decode 0x009#32 = .ok i) ∧ (∃ e, decode 0x00A#32 = .error e) :=
  ⟨⟨⟨"XGCD", 0x00000002#32, 0xFFFFFEFF#32⟩, by decide, by decide⟩, ⟨.bdec, by decide⟩, ⟨.opcode, by decide⟩⟩

/-- One word per ground of R84, at the ends of its range. -/
theorem witness_IllegalWordsFault :
    ∀ w ∈ [0x00000201#32, 0xFFFFFFFF#32, 0x00000000#32, 0x0000000A#32, 0x000000FF#32, 0x00000103#32, 0x00000109#32],
      let s : State := { small with port := [.issue w] }
      s.port = .issue w :: [] ∧ ¬ s.faulted ∧ ∃ e, decode w = .error e := by
  intro w hw
  refine ⟨rfl, by show ¬ small.faulted; decide, ?_⟩
  fin_cases hw
  · exact ⟨.zeroBits, by decide⟩
  · exact ⟨.zeroBits, by decide⟩
  · exact ⟨.opcode, by decide⟩
  · exact ⟨.opcode, by decide⟩
  · exact ⟨.opcode, by decide⟩
  · exact ⟨.kBit, by decide⟩
  · exact ⟨.kBit, by decide⟩

theorem witness_StepRunsDecodedCommand :
    (∃ s : State, s.port = [.issue 0x102#32] ∧ decode 0x102#32 = .ok (.xgcd true)) ∧
      decode (BitVec.ofNat 32 (0x109 % 2 ^ 8)) = .ok .bdec :=
  ⟨⟨{ small with port := [.issue 0x102#32] }, rfl, by decide⟩, by decide⟩

theorem witness_IdleCoreHoldsState : State.reset.port = [] := rfl

/-- Each transaction, at the ends of what the port expresses; an `ISSUE` on a core FAULTED and not. -/
theorem witness_EveryTransactionAnswers :
    (∀ t ∈ [Transaction.wr 0x12#6 (2 ^ 33 - 1), .wr 0x05#6 (2 ^ 40), .rd 0x3C#6, .rdpl (2 ^ 32 - 1), .issue 0xFFFFFFFF#32,
      .issue 0x008#32, .reset],
      ({ small with port := [t] } : State).port = [t] ∧ ({ smallFaulted with port := [t] } : State).port = [t] ∧
        t.expressible small.par = true ∧ t.expressible smallFaulted.par = true) ∧
    ¬ small.faulted ∧ smallFaulted.faulted := by decide

/-- A signed register at the ends of its patterns, a read-only one, a FAULTED core, and an unmapped index. -/
theorem witness_WriteTransaction :
    (∀ v ∈ [0, 2 ^ 32 - 1, 2 ^ 32, 2 ^ 33 - 1], ∀ s ∈ [small, smallFaulted],
      ({ s with port := [.wr 0x12#6 v] } : State).port = [.wr RegName.K_A.index v] ∧ v < 2 ^ RegName.K_A.width s.par) ∧
    (({ small with port := [.wr 0x04#6 (2 ^ 32 - 1)] } : State).port = [.wr RegName.MS_R.index (2 ^ 32 - 1)] ∧
      2 ^ 32 - 1 < 2 ^ RegName.MS_R.width small.par) ∧
    RegName.K_A.writable = true ∧ RegName.MS_R.writable = false ∧ ¬ small.faulted ∧ smallFaulted.faulted ∧
    ({ small with port := [.wr 0x05#6 7] } : State).port = [.wr 0x05#6 7] ∧ ∀ r : RegName, r.index ≠ 0x05#6 :=
  ⟨by decide, by decide, rfl, rfl, by decide, by decide, rfl, fun r => by cases r <;> decide⟩

theorem witness_ReadTransaction :
    ({ small with port := [.rd 0x12#6] } : State).port = [.rd RegName.K_A.index] ∧
    ({ small with port := [.rd 0x3D#6] } : State).port = [.rd 0x3D#6] ∧ ∀ r : RegName, r.index ≠ 0x3D#6 :=
  ⟨by decide, rfl, fun r => by cases r <;> decide⟩

theorem witness_ReadAfterWrite :
    let s : State := { small with port := [.wr 0x13#6 (2 ^ 33 - 1), .rd 0x13#6] }
    ¬ s.faulted ∧ RegName.K_B.writable = true ∧ 2 ^ 33 - 1 < 2 ^ RegName.K_B.width s.par ∧
      s.port = .wr RegName.K_B.index (2 ^ 33 - 1) :: .rd RegName.K_B.index :: [] := by decide

/-- A core whose list holds 3 and 7. -/
def listed : State := { small with sv := ⟨0, 7, 2⟩, PL := Memory.load [3, 7] }

theorem listed_legal : listed.ListLegal where
  canonical := rfl
  counted := fun k => by
    change k < 2 ↔ _
    rw [show listed.PL = Memory.load [3, 7] from rfl, Memory.read_load]
    simp
  bounded := by decide
  primes := fun k v h => by
    rw [show listed.PL = Memory.load [3, 7] from rfl, Memory.read_load] at h
    have hv := List.mem_of_getElem? h
    simp only [List.mem_cons, List.not_mem_nil, or_false] at hv
    rcases hv with rfl | rfl
    · exact ⟨prime_3, rfl, by decide⟩
    · exact ⟨prime_7, rfl, by decide⟩
  ascending := fun j k u v hjk hu hv => by
    rw [show listed.PL = Memory.load [3, 7] from rfl, Memory.read_load] at hu hv
    match j, k with
    | 0, 1 => cases hu; cases hv; decide
    | j, 0 => omega
    | _ + 1, 1 => omega
    | _, k + 2 => simp at hv

/-- The last entry below `PCOUNT`, the first above it, and the largest index. -/
theorem witness_PrimeListRead :
    (∀ k : Nat, ({ listed with port := [.rdpl k] } : State).ListLegal ∧
      ({ listed with port := [.rdpl k] } : State).port = .rdpl k :: []) ∧
    1 < 2 ^ listed.par.W ∧ 2 ^ 32 - 1 < 2 ^ listed.par.W ∧
    1 < listed.sv.PCOUNT ∧ listed.sv.PCOUNT ≤ 2 ∧ listed.sv.PCOUNT ≤ 2 ^ 32 - 1 :=
  ⟨fun _ => ⟨⟨listed_legal.canonical, listed_legal.counted, listed_legal.bounded, listed_legal.primes,
    listed_legal.ascending⟩, rfl⟩, by decide, by decide, by decide, by decide, by decide⟩

theorem witness_ResetTransaction : ({ smallFaulted with port := [.reset] } : State).port = [.reset] := rfl

/-- The smallest value and index that cannot be expressed. -/
theorem witness_InexpressibleRefused :
    (({ small with port := [.wr 0x38#6 2] } : State).port = [.wr RegName.CTRL.index 2] ∧ 2 ^ RegName.CTRL.width small.par ≤ 2) ∧
    (({ small with port := [.rdpl (2 ^ 32)] } : State).port = [.rdpl (2 ^ 32)] ∧ 2 ^ small.par.W ≤ 2 ^ 32) ∧
    ∃ x, step { small with port := [.wr 0x38#6 2] } = .refused x := ⟨by decide, by decide, _, rfl⟩

theorem witness_FaultEntryPrecise :
    ∃ t, exec .modsqr small = .next t ∧ t.answer = .completion (.fault .MOD_ZERO) := ⟨_, rfl, by decide⟩

/-- A FAULTED core with one transaction of each kind; the prime list still reads. -/
theorem witness_FaultedTransactions :
    ∀ t ∈ [Transaction.issue 0xFFFFFFFF#32, .wr 0x12#6 (2 ^ 33 - 1), .rd RegName.FCMD.index, .rdpl 1, .reset],
      ({ listed with ctl := ⟨0#1, 0x3F#8, 1#1, 3#4, 3#32⟩, port := [t] } : State).port = [t] ∧
      ({ listed with ctl := ⟨0#1, 0x3F#8, 1#1, 3#4, 3#32⟩, port := [t] } : State).faulted ∧
      t.expressible listed.par = true ∧ 1 < 2 ^ listed.par.W ∧ 1 < listed.sv.PCOUNT ∧
      Memory.read listed.PL 1 = some 7 := by decide

theorem witness_FaultedUntilReset :
    let s : State := { smallFaulted with port := [.wr 0x38#6 1, .issue 0x001#32] }
    s.faulted ∧ Transaction.reset ∉ s.port ∧ ∃ t, Host.Core.run core 2 s = .next t :=
  ⟨by decide, by decide, _, rfl⟩

/-- A legal state with a transaction that a step performs. -/
def legal : State := { listed with bd := ⟨1#32, 0x3F#8, 0b10000#5⟩, port := [.issue 0x008#32] }

theorem witness_StepKeepsInv : legal.Inv ∧ ∃ t, step legal = .next t := by
  refine ⟨⟨by decide, fun r => ?_,
    ⟨fun _ => ⟨rfl, rfl⟩, fun h => absurd h (by decide), fun h => absurd h (by decide)⟩, .inr ⟨0#2, .inr (.inr (by decide))⟩, ?_, ⟨rfl, ?_⟩⟩, _, rfl⟩
  · cases r <;> (simp only [InRange]; decide)
  · exact ⟨listed_legal.canonical, listed_legal.counted, listed_legal.bounded, listed_legal.primes, listed_legal.ascending⟩
  · intro i b h; cases h

theorem witness_ResetMeetsInv : Config.Params.wf ⟨32, 4⟩ = true := by decide

theorem witness_DoneIsIdempotent :
    ∃ t, exec .keyset (keyState 11 19 0 0) = .next t ∧ t.answer = .completion .done := ⟨_, rfl, by decide +kernel⟩

/-- A command that writes registers of two units. -/
theorem witness_CommandFrames :
    ∃ t, exec .bdec (keyState 11 19 7 (-4)) = .next t ∧ t.answer = .completion .done := ⟨_, rfl, by decide +kernel⟩

theorem qualifies_3 : Qualifies 0 7 3 := ⟨by decide, by decide, prime_3, rfl⟩
theorem qualifies_7 : Qualifies 0 7 7 := ⟨by decide, by decide, prime_7, rfl⟩

/-- The largest `SV_MAX` of eight cells, with the two primes that `SIEVE.K` needs. -/
theorem witness_SieveResult :
    let s : State := { small with sv := ⟨0, 7, 0⟩ }
    ¬ s.faulted ∧ s.sv.SV_MAX < s.par.S ∧
      ∃ i j, i < j ∧ Qualifies s.sv.SV_MIN s.sv.SV_MAX i ∧ Qualifies s.sv.SV_MIN s.sv.SV_MAX j :=
  ⟨by decide, by decide, 3, 7, by decide, qualifies_3, qualifies_7⟩

theorem one_prime : ¬ ∃ i j, i < j ∧ Qualifies 0 6 i ∧ Qualifies 0 6 j := by
  rintro ⟨i, j, h, ⟨_, h1, _, h2⟩, ⟨_, h3, _, h4⟩⟩
  omega

/-- The smallest `SV_MAX` out of range, a range with one prime only, and an `SV_MIN` just above `SV_MAX`. -/
theorem witness_SieveFaults :
    small.par.S ≤ ({ small with sv := ⟨0, 8, 0⟩ } : State).sv.SV_MAX ∧ ¬ small.faulted ∧
      ({ small with sv := ⟨0, 6, 0⟩ } : State).sv.SV_MAX < small.par.S ∧
      (¬ ∃ i j, i < j ∧ Qualifies 0 6 i ∧ Qualifies 0 6 j) ∧
      (let s : State := { small with sv := ⟨8, 7, 0⟩ }
       s.sv.SV_MAX < s.par.S ∧ s.sv.SV_MAX < s.sv.SV_MIN) :=
  ⟨by decide, by decide, by decide, one_prime, by decide⟩

theorem witness_PrimeListNeverOverflows : Config.Params.wf ⟨32, 8⟩ = true ∧ 7 ≤ (⟨32, 8⟩ : Config.Params).S - 1 := by decide

theorem witness_XgcdRecursion : 0 < (1 : Nat) := by decide

/-- The first clause at the smallest gcd; the widest operands; a command that answers; two odd primes. -/
theorem witness_XgcdBounds :
    0 < (xgcd 1 0).g ∧ (2 ^ 32 - 1 < 2 ^ 32) ∧ (∃ t, exec .keyset small = .next t) ∧ (∃ t, exec (.xgcd true) small = .next t) ∧
      IsPrime 3 ∧ IsPrime 5 ∧ (3 : Nat) ≠ 5 ∧ 3 % 2 = 1 ∧ 5 % 2 = 1 :=
  ⟨by decide, by decide, ⟨_, rfl⟩, ⟨_, rfl⟩, prime_3, prime_5, by decide, rfl, rfl⟩

theorem witness_XgcdResult :
    let s : State := { small with xg := ⟨11, 19, 0, 0, 0⟩ }
    let u : State := { small with xg := ⟨12, 18, 0, 0, 0⟩ }
    ¬ s.faulted ∧ Nat.gcd s.xg.XG_A s.xg.XG_B = 1 ∧ ¬ u.faulted ∧ Nat.gcd u.xg.XG_A u.xg.XG_B ≠ 1 ∧
      Nat.gcd small.xg.XG_A small.xg.XG_B ≠ 1 := by decide

/-- A valid pair, a wrong congruence on either side, and a pair that is not coprime. -/
theorem witness_KeysetResult :
    (let s := keyState 11 19 0 0
     ¬ s.faulted ∧ s.key.K_P % 4 = 3 ∧ s.key.K_Q % 4 = 3 ∧ Nat.gcd s.key.K_P s.key.K_Q = 1) ∧
    (¬ (keyState 13 19 0 0).faulted ∧ (keyState 13 19 0 0).key.K_P % 4 ≠ 3 ∧ (keyState 19 0 0 0).key.K_Q % 4 ≠ 3) ∧
    (let s := keyState 15 3 0 0
     ¬ s.faulted ∧ s.key.K_P % 4 = 3 ∧ s.key.K_Q % 4 = 3 ∧ Nat.gcd s.key.K_P s.key.K_Q ≠ 1) := by decide

theorem witness_CandidatesIndependentOfBezout :
    0 < 11 * 19 ∧ (7 : Int) * (11 : Nat) + (-4) * (19 : Nat) = 1 ∧ (26 : Int) * (11 : Nat) + (-15) * (19 : Nat) = 1 := by decide

/-- The smallest modulus, none, and a `BENC` that answers. -/
theorem witness_ModularProductResults :
    (let s : State := { small with ms := ⟨12, 5, 0, 1, 0⟩ }
     ¬ s.faulted ∧ s.ms.MS_M ≠ 0) ∧ (¬ small.faulted ∧ small.ms.MS_M = 0) ∧ ∃ t, exec .benc small = .next t :=
  ⟨by decide, by decide, _, rfl⟩

theorem witness_ModexpResult :
    (let s : State := { small with ms := ⟨0, 0, 0, 1, 0⟩ }
     ¬ s.faulted ∧ s.ms.MS_M ≠ 0 ∧ 1 ≤ s.ms.MS_M) ∧ ¬ small.faulted ∧ small.ms.MS_M = 0 := by decide

theorem witness_ModZeroFaults : ¬ small.faulted ∧ small.ms.MS_M = 0 ∧ small.be.BE_N = 0 := by decide

/-- A key that fits, a wrong congruence, and a product just above 2^32 on a core of W = 32. -/
theorem witness_CrtsqrtResult :
    (let s := keyState 11 19 7 (-4)
     ¬ s.faulted ∧ s.key.K_P % 4 = 3 ∧ s.key.K_Q % 4 = 3 ∧ s.key.K_P * s.key.K_Q < 2 ^ s.par.W) ∧
    (¬ small.faulted ∧ small.key.K_P % 4 ≠ 3) ∧
    (let s : State := { small with key := ⟨3, 1431655767, 0, 0⟩ }
     ¬ s.faulted ∧ s.key.K_P % 4 = 3 ∧ s.key.K_Q % 4 = 3 ∧ 2 ^ s.par.W ≤ s.key.K_P * s.key.K_Q) := by decide +kernel

/-- Each of the two primes with the wrong congruence. -/
theorem witness_KeyCongruenceFaults :
    ¬ (keyState 13 19 0 0).faulted ∧ (keyState 13 19 0 0).key.K_P % 4 ≠ 3 ∧ (keyState 19 13 0 0).key.K_Q % 4 ≠ 3 := by decide

/-- A product just above 2^32 on a core of W = 32, and the fault it raises. -/
theorem witness_WidthFaults :
    let s : State := { small with key := ⟨3, 1431655767, 0, 0⟩ }
    ¬ s.faulted ∧ s.key.K_P % 4 = 3 ∧ s.key.K_Q % 4 = 3 ∧ 2 ^ s.par.W ≤ s.key.K_P * s.key.K_Q ∧
      ∃ t, exec .bdec s = .next t ∧ t.answer = .completion (.fault .WIDTH) :=
  ⟨by decide, by decide, by decide, by decide, _, rfl, by decide +kernel⟩

/-- The smallest product, and a proper one. -/
theorem witness_CandidateRanges : 0 < 1 * 1 ∧ 0 < 11 * 19 := by decide

theorem properKey_11_19 : ProperKey 11 19 7 (-4) := ⟨prime_11, prime_19, by decide, rfl, rfl, by decide⟩

theorem not_square_2_11 : ¬ IsSquareMod 2 11 := by
  rintro ⟨t, h⟩
  have hl : t % 11 < 11 := Nat.mod_lt _ (by decide)
  rw [Nat.mul_mod] at h
  generalize t % 11 = u at h hl
  interval_cases u <;> simp at h

/-- A number that is a square modulo both primes, and one that is not. -/
theorem witness_CandidatesAllOrNone :
    ProperKey 11 19 7 (-4) ∧ (IsSquareMod 207 11 ∧ IsSquareMod 207 19) ∧ ¬ (IsSquareMod 2 11 ∧ IsSquareMod 2 19) :=
  ⟨properKey_11_19, ⟨⟨3, by decide⟩, ⟨6, by decide⟩⟩, fun h => not_square_2_11 h.1⟩

/-- The numbers 25 and 8385, on either side of n = 209, both of square 207. -/
theorem witness_PlaintextAmongCandidates :
    ProperKey 11 19 7 (-4) ∧ 207 % (11 * 19) = 25 * 25 % (11 * 19) ∧ 207 % (11 * 19) = 8385 * 8385 % (11 * 19) :=
  ⟨properKey_11_19, by decide, by decide⟩

theorem witness_SwappedPrimeRoles : 0 < 11 * 19 ∧ (crt4 11 19 7 (-4) 3 6).v1 ≠ 0 := by decide +kernel

theorem witness_EncodeDoublesTheString : 1 ≤ (1 : Nat) ∧ 255 ≤ (255 : Nat) := by decide

theorem witness_DecodeAccepts : 1 ≤ (1 : Nat) ∧ RDecode 3 = some 1 ∧ RDecode 131328 = some 256 := by decide +kernel

/-- The smallest modulus. -/
theorem witness_BencResult :
    let s : State := { small with be := ⟨200#8, 1, 0#16, 0#32⟩ }
    ¬ s.faulted ∧ s.be.BE_N ≠ 0 := by decide

theorem witness_BlockOverflowUnreachable : 1 ≤ (1 : Nat) ∧ ∃ t, exec .benc small = .next t := ⟨by decide, _, rfl⟩

/-- A byte found, a half out of range, no half at all (V8): the last two outside strict mode. -/
theorem witness_BdecResult :
    (let s := keyState 11 19 7 (-4)
     ¬ s.faulted ∧ s.key.K_P % 4 = 3 ∧ s.key.K_Q % 4 = 3 ∧ s.key.K_P * s.key.K_Q < 2 ^ s.par.W ∧ s.ctl.CTRL = 0#1) ∧
    select4 (crt4 11 19 7 (-4) (207 ^ 3 % 11) (207 ^ 5 % 19)) = .hit 1 7 ∧
    select4 ((keyState 499 503 (-126) 125).candidates 0x00008B8E) = .range 3 256 ∧
    select4 ((keyState 251 263 (-22) 21).candidates 1) = .miss := by decide +kernel

/-- V8's strict row. -/
theorem witness_StrictModeFaults :
    let s : State := { keyState 251 263 (-22) 21 with bd := ⟨1#32, 0#8, 0#5⟩, ctl := ⟨1#1, 0x3F#8, 0#1, 0#4, 0#32⟩ }
    ¬ s.faulted ∧ s.ctl.CTRL = 1#1 ∧ s.key.K_P % 4 = 3 ∧ s.key.K_Q % 4 = 3 ∧ s.key.K_P * s.key.K_Q < 2 ^ s.par.W ∧
      select4 (s.candidates s.bd.BD_BLK.toNat) = .miss ∧
      (after .bdec s).answer = .completion (.fault .DECODE_MISS) := by decide +kernel

/-- Two states that differ in another unit and in the outputs; one block that gives a byte. -/
theorem witness_BdecMemoryless :
    let s : State := { keyState 11 19 7 (-4) with bd := ⟨0xCF#32, 0#8, 0#5⟩ }
    let s' : State := { s with ms := ⟨1, 2, 3, 4, 5⟩, bd := ⟨0xCF#32, 9#8, 0b10000#5⟩ }
    s ≠ s' ∧ ¬ s.faulted ∧ ¬ s'.faulted ∧ (after .bdec s).answer = .completion .done ∧
      (∃ t, exec .bdec s = .next t) ∧ ∃ t, exec .bdec s' = .next t :=
  ⟨by decide, by decide, by decide, by decide +kernel, ⟨_, rfl⟩, ⟨_, rfl⟩⟩

theorem witness_BdecExtendsCrtsqrt :
    ∃ t, exec .bdec (keyState 11 19 7 (-4)) = .next t ∧ t.answer = .completion .done := ⟨_, rfl, by decide +kernel⟩

theorem witness_CharsBlockvalInverse :
    (List.replicate 32 '1').length = 32 ∧ (List.replicate 32 '1').all isBitChar = true := by decide

/-- Moduli 1 and 2^32 - 1, the zero modulus with a byte, and no byte. -/
theorem witness_StreamEncryptResult :
    ¬ small.faulted ∧ 1 < 2 ^ small.par.W ∧ 2 ^ 32 - 1 < 2 ^ small.par.W ∧ 0 < 2 ^ small.par.W ∧ [65#8] ≠ ([] : List Byte) := by
  decide

/-- The longest tail. -/
theorem witness_TruncatedTailIgnored : ([] : List Char).length % 32 = 0 ∧ (List.replicate 31 '0').length < 32 := by decide

/-- A wrong congruence, a pair that is not coprime, and a valid pair with one chunk and a tail. -/
theorem witness_StreamDecryptLength :
    ¬ small.faulted ∧ 13 < 2 ^ small.par.W ∧ 13 % 4 ≠ 3 ∧ (11 % 4 = 3 ∧ Nat.gcd 11 11 ≠ 1) ∧
      (19 % 4 = 3 ∧ Nat.gcd 11 19 = 1 ∧ 11 * 19 < 2 ^ small.par.W ∧ small.ctl.CTRL = 0#1 ∧
        (List.replicate 33 '0').all isBitChar = true) := by decide

/-- Byte 65 under the key (251, 263): its encoding 8385 is the third candidate and the first that decodes (S6). -/
theorem witness_StreamRoundTrip :
    (¬ small.faulted ∧ small.ctl.CTRL = 0#1) ∧ (IsPrime 251 ∧ IsPrime 263 ∧ 251 % 4 = 3 ∧ 263 % 4 = 3) ∧
      251 * 263 < 2 ^ small.par.W ∧ REncode 65 = 8385 ∧ 8385 < 251 * 263 ∧ 8385 * 8385 % (251 * 263) = 4380 ∧
      (crt4 251 263 (xgcd 251 263).x (xgcd 251 263).y (rootp 4380 251) (rootp 4380 263)).toList =
        [57628, 62099, 8385, 3914] ∧ RDecode 57628 = none ∧ RDecode 62099 = none :=
  ⟨by decide, ⟨prime_251, prime_263, rfl, rfl⟩, by decide, by decide +kernel⟩

/-- The whole range of eight cells, and a range with one prime. -/
theorem witness_EncryptCallKeys :
    small.par.wf = true ∧ ¬ small.faulted ∧ 0 < 2 ^ small.par.W ∧ 7 < small.par.S ∧ 7 * 7 < 2 ^ small.par.W ∧
      (∀ cnt : Nat, 2 ≤ cnt → ((fun _ => (0, 1)) cnt : Nat × Nat).1 < cnt ∧ ((fun _ => (0, 1)) cnt : Nat × Nat).2 < cnt ∧
        ((fun _ => (0, 1)) cnt : Nat × Nat).1 ≠ ((fun _ => (0, 1)) cnt : Nat × Nat).2) ∧
      (∃ i j, i < j ∧ Qualifies 0 7 i ∧ Qualifies 0 7 j) ∧ ¬ ∃ i j, i < j ∧ Qualifies 0 6 i ∧ Qualifies 0 6 j :=
  ⟨by decide, by decide, by decide, by decide, by decide, fun cnt h => ⟨by show 0 < cnt; omega, by show 1 < cnt; omega,
    by show (0 : Nat) ≠ 1; decide⟩, ⟨3, 7, by decide, qualifies_3, qualifies_7⟩, one_prime⟩

end Sys2Proof.Tests
end

