-- ==== Sys2Proof/Proofs/HostMemory.lean ====
section
/-! PROOFS. The host's writes of registers (`WR`, R61) and reads of the prime list (`RDPL`, R63). -/

namespace Sys2Proof.Machine

/-! ### The value a written register takes -/

/-- The signed registers are the ones of W+1 bits (R21). -/
theorem RegName.width_of_signed {r : RegName} (p : Config.Params) (h : r.signed = true) : r.width p = p.W + 1 := by
  cases r with
  | XG_X | XG_Y | K_A | K_B => rfl
  | _ => cases h

/-- A number that fits in the bits of a fixed-width register is what the register then holds. -/
theorem natCast_toNat_ofNat {n v : Nat} (h : v < 2 ^ n) : ((BitVec.ofNat n v).toNat : Int) = v := by
  rw [BitVec.toNat_ofNat, Nat.mod_eq_of_lt h]

/-- An `RW` register holds, after a write, the integer that the pattern denotes (R9, R61). -/
theorem State.writeReg_regValue_self (s : State) {r : RegName} {v : Nat} (hw : r.writable = true)
    (hv : v < 2 ^ r.width s.par) :
    (s.writeReg r v).regValue r = if r.signed then signedOf (r.width s.par) v else (v : Int) := by
  cases r with
  | BE_BYTE | BD_BLK | CTRL | PHOLD => exact natCast_toNat_ofNat hv
  | MS_R | XG_G | XG_X | XG_Y | CR_R | CR_S | CAND0 | CAND1 | CAND2 | CAND3 | BE_M | BE_BLK
  | BD_BYTE | BD_STAT | PCOUNT | STATUS | FCODE | FCMD => cases hw
  | _ => rfl

/-! ### `WR` -/

section
variable {s : State} {r : RegName} {v : Nat}

theorem doWr_faulted (i : RegIndex) (v : Nat) (h : s.faulted) : doWr i v s = s.answering .nothing := by
  simp [doWr, h]

theorem doWr_unmapped {i : RegIndex} (v : Nat) (h : ∀ r : RegName, r.index ≠ i) : doWr i v s = s.answering .nothing := by
  simp [doWr, regAt_eq_none h]

theorem doWr_index (r : RegName) (v : Nat) (h : ¬ s.faulted) :
    doWr r.index v s = (s.writeReg r v).answering .nothing := by
  simp [doWr, h]

/-- While FAULTED, and of an `RO` register, a `WR` is without effect (R54, R191). -/
theorem doWr_noEffect (v : Nat) (h : s.faulted ∨ r.writable = false) : doWr r.index v s = s.answering .nothing := by
  by_cases hf : s.faulted
  · exact doWr_faulted r.index v hf
  · rw [doWr_index r v hf, s.writeReg_readOnly r v (h.resolve_left hf)]

/-- A `WR` answers nothing, and touches no memory, no parameter, no other transaction and no draw. -/
theorem doWr_rest (s : State) (r : RegName) (v : Nat) :
    (doWr r.index v s).answer = .nothing ∧ (doWr r.index v s).port = s.port ∧ (doWr r.index v s).par = s.par ∧
      (doWr r.index v s).draws = s.draws ∧ (doWr r.index v s).PL = s.PL ∧ (doWr r.index v s).SV = s.SV := by
  by_cases hf : s.faulted
  · rw [doWr_faulted r.index v hf]
    exact ⟨rfl, rfl, rfl, rfl, rfl, rfl⟩
  · obtain ⟨hpar, hPL, hSV, hport, -, hdraws⟩ := s.writeReg_rest r v
    rw [doWr_index r v hf]
    exact ⟨rfl, hport, hpar, hdraws, hPL, hSV⟩

theorem doWr_regValue_of_ne (s : State) {r r' : RegName} (v : Nat) (h : r' ≠ r) :
    (doWr r.index v s).regValue r' = s.regValue r' := by
  by_cases hf : s.faulted
  · rw [doWr_faulted r.index v hf, State.regValue_answering]
  · rw [doWr_index r v hf, State.regValue_answering, s.writeReg_regValue_of_ne v h]

theorem doWr_regValue_self (hf : ¬ s.faulted) (hw : r.writable = true) (hv : v < 2 ^ r.width s.par) :
    (doWr r.index v s).regValue r = if r.signed then signedOf (r.width s.par) v else (v : Int) := by
  rw [doWr_index r v hf, State.regValue_answering, s.writeReg_regValue_self hw hv]

/-- One step on a `WR` of a register, with a pattern of its width. -/
theorem step_wr {rest : List Transaction} (hp : s.port = .wr r.index v :: rest) (hv : v < 2 ^ r.width s.par) :
    step s = .next (doWr r.index v (s.withPort rest)) :=
  step_performs hp (by simp [Transaction.expressible, hv])

/-- One step on a `WR` of an unmapped index (R54). -/
theorem step_wr_unmapped {i : RegIndex} {rest : List Transaction} (hp : s.port = .wr i v :: rest)
    (hi : ∀ r : RegName, r.index ≠ i) : step s = .next ((s.withPort rest).answering .nothing) := by
  rw [step_performs hp (by simp [Transaction.expressible, regAt_eq_none hi]), perform, doWr_unmapped v hi]

end

/-- Settles O8, by what `WR` does to the written register, to the others and to the rest of the state. -/
theorem writeTransaction : Obligations.WriteTransaction := by
  unfold Obligations.WriteTransaction
  refine ⟨fun s r v rest hp hv => ?_, fun s i v rest hp hi => step_wr_unmapped hp hi⟩
  obtain ⟨hanswer, hport, hpar, hdraws, hPL, hSV⟩ := doWr_rest (s.withPort rest) r v
  refine ⟨_, step_wr hp hv, hanswer, hport, hpar, hdraws, hPL, hSV, fun r' hne => ?_, fun ⟨hf, hw⟩ => ?_, fun h => ?_⟩
  · rw [doWr_regValue_of_ne _ v hne, State.regValue_withPort]
  · rw [doWr_regValue_self (s := s.withPort rest) hf hw hv]
    split
    · rw [RegName.width_of_signed _ ‹_›]
      rfl
    · rfl
  · rw [doWr_noEffect (s := s.withPort rest) v h, State.regValue_answering, State.regValue_withPort]

/-! ### `RDPL` -/

section
variable {s t : State} {k : Nat}

theorem doRdpl_below {v : Nat} (hk : k < s.sv.PCOUNT) (hv : s.PL.read k = some v) :
    doRdpl k s = s.answering (.value v) := by
  simp [doRdpl, hk, hv]

theorem doRdpl_above (hk : s.sv.PCOUNT ≤ k) : doRdpl k s = s.drawn.answering (.value (s.freeEntry k)) := by
  simp [doRdpl, Nat.not_lt.mpr hk]

/-- A free entry is a value of W bits (R48, R63). -/
theorem State.freeEntry_lt (s : State) (k : Nat) : s.freeEntry k < 2 ^ s.par.W := Nat.mod_lt _ (Nat.two_pow_pos _)

/-- Whichever value it answers, a `RDPL` leaves the port and every register and entry as they were. -/
theorem doRdpl_frame (k : Nat) (s : State) : s.SameCore (doRdpl k s) ∧ (doRdpl k s).port = s.port := by
  unfold doRdpl
  split <;> exact ⟨⟨rfl, rfl, rfl, rfl, rfl, rfl, rfl, rfl, rfl, rfl, rfl⟩, rfl⟩

/-- The transactions that are presented are none of the core's registers and memories. -/
theorem State.SameCore.of_withPort {rest : List Transaction} (h : (s.withPort rest).SameCore t) : s.SameCore t :=
  ⟨h.par, h.ms, h.xg, h.key, h.cr, h.be, h.bd, h.sv, h.ctl, h.PL, h.SV⟩

/-- One step on a `RDPL` of an index below 2^W. -/
theorem step_rdpl {rest : List Transaction} (hp : s.port = .rdpl k :: rest) (hk : k < 2 ^ s.par.W) :
    step s = .next (doRdpl k (s.withPort rest)) :=
  step_performs hp (by simp [Transaction.expressible, hk])

end

/-- Settles O11: a legal list has an entry at each index below `PCOUNT`; at the others the answer is drawn. -/
theorem primeListRead : Obligations.PrimeListRead := by
  unfold Obligations.PrimeListRead
  intro s k rest hlegal hk hp
  obtain ⟨hcore, hport⟩ := doRdpl_frame k (s.withPort rest)
  rcases Nat.lt_or_ge k s.sv.PCOUNT with hlt | hge
  · obtain ⟨v, hv⟩ := Option.isSome_iff_exists.mp ((hlegal.counted k).mp hlt)
    refine ⟨_, v, step_rdpl hp hk, hcore.of_withPort, hport, ?_, fun _ => hv, fun hge => absurd hlt (Nat.not_lt.mpr hge)⟩
    rw [doRdpl_below (s := s.withPort rest) hlt hv, State.answering_answer]
  · refine ⟨_, (s.withPort rest).freeEntry k, step_rdpl hp hk, hcore.of_withPort, hport, ?_,
      fun hlt => absurd hlt (Nat.not_lt.mpr hge), fun _ => State.freeEntry_lt _ k⟩
    rw [doRdpl_above (s := s.withPort rest) hge, State.answering_answer]

end Sys2Proof.Machine
end

