-- ==== Sys2Proof/Proofs/Encoding.lean ====
section
/-! PROOFS. The format of a command word (R81), the decoder (R91) and the rows of the opcode map (R82). -/

namespace Sys2Proof

/-! ### The fields of a word -/

theorem wordOf_fieldsOf (w : Word) : wordOf (fieldsOf w) = w := by
  show (w.extractLsb' 9 23 ++ w.extractLsb' 8 1) ++ w.extractLsb' 0 8 = w
  rw [BitVec.extractLsb'_append_extractLsb'_eq_extractLsb' (by omega),
    BitVec.extractLsb'_append_extractLsb'_eq_extractLsb' (by omega), BitVec.extractLsb'_eq_self]

theorem fieldsOf_encode (i : Instr) : fieldsOf (encode i) = i.fields := by
  cases i with
  | sieve k | xgcd k => cases k <;> rfl
  | _ => rfl

/-- A word has the fields of a command exactly if it is the command's word (R81). -/
theorem fieldsOf_eq_fields_iff {w : Word} {i : Instr} : fieldsOf w = i.fields ↔ w = encode i := by
  constructor
  · intro h
    rw [encode, ← h, wordOf_fieldsOf]
  · rintro rfl
    exact fieldsOf_encode i

/-! ### What the decoder answers -/

theorem withoutK_eq_ok_iff {k : BitVec 1} {i j : Instr} : withoutK k i = .ok j ↔ k = 0#1 ∧ i = j := by
  unfold withoutK
  split <;> simp [*]

theorem ofBool_beq_one (k : BitVec 1) : BitVec.ofBool (k == 1#1) = k := by
  revert k
  decide

theorem decodeOpc_opc_kBit (i : Instr) : decodeOpc i.opc i.kBit = .ok i := by
  cases i with
  | sieve k | xgcd k => cases k <;> rfl
  | _ => rfl

/-- The decoder accepts the `OPC` and the `K` of a command, and no others (R91). -/
theorem decodeOpc_eq_ok_iff {opc : BitVec 8} {k : BitVec 1} {i : Instr} :
    decodeOpc opc k = .ok i ↔ opc = i.opc ∧ k = i.kBit := by
  constructor
  · intro h
    unfold decodeOpc at h
    split_ifs at h with hsieve hxgcd
    · obtain rfl := Except.ok.inj h
      exact ⟨hsieve, (ofBool_beq_one k).symm⟩
    · obtain rfl := Except.ok.inj h
      exact ⟨hxgcd, (ofBool_beq_one k).symm⟩
    all_goals
      obtain ⟨hk, rfl⟩ := withoutK_eq_ok_iff.mp h
      exact ⟨‹_›, hk⟩
  · rintro ⟨rfl, rfl⟩
    exact decodeOpc_opc_kBit i

/-- The words that decode to a command: its own word, and no other (R81, R91). -/
theorem decode_eq_ok_iff {w : Word} {i : Instr} : decode w = .ok i ↔ w = encode i := by
  rw [← fieldsOf_eq_fields_iff]
  unfold decode
  generalize fieldsOf w = f
  obtain ⟨zero, k, opc⟩ := f
  by_cases hzero : zero = 0#23
  · simp [hzero, decodeOpc_eq_ok_iff, Instr.fields, and_comm]
  · simp [hzero, Instr.fields]

/-! ### The rows of the opcode map -/

theorem encodesItsRow (i : Instr) : Laws.EncodesItsRow.Statement i := by
  cases i with
  | sieve k => exact Laws.EncodesItsRow.sieve k
  | xgcd k => exact Laws.EncodesItsRow.xgcd k
  | keyset => exact Laws.EncodesItsRow.keyset
  | modsqr => exact Laws.EncodesItsRow.modsqr
  | modmul => exact Laws.EncodesItsRow.modmul
  | modexp => exact Laws.EncodesItsRow.modexp
  | crtsqrt => exact Laws.EncodesItsRow.crtsqrt
  | benc => exact Laws.EncodesItsRow.benc
  | bdec => exact Laws.EncodesItsRow.bdec

/-- The word of a command selects the rows of its mnemonic, and no others (R82). -/
theorem selects_encode_iff {r : Row} (hr : r ∈ opcodeMap) (i : Instr) :
    r.selects (encode i) = true ↔ r.mnemonic = i.mnemonic := by
  obtain ⟨-, hrows⟩ := encodesItsRow i
  have hmem := congrArg (r ∈ ·) hrows
  simpa [List.mem_filter, hr] using hmem

theorem exists_row_of_mnemonic (i : Instr) : ∃ r ∈ opcodeMap, r.mnemonic = i.mnemonic := by
  cases i <;> simp [opcodeMap, Instr.mnemonic]

/-- A mask that leaves out bit 8 alone leaves that bit open: the word is the pattern, with `K` = 0 or with `K` = 1. -/
theorem eq_or_eq_of_and_kMask {w p : Word} (h : w &&& 0xFFFFFEFF#32 = p) : w = p ∨ w = p ||| 0x100#32 := by
  have hsplit : w = p ||| (w &&& BitVec.twoPow 32 8) := by
    calc w = w &&& (0xFFFFFEFF#32 ||| BitVec.twoPow 32 8) := (BitVec.and_allOnes (x := w)).symm
      _ = p ||| (w &&& BitVec.twoPow 32 8) := by rw [BitVec.and_or_distrib_left, h]
  rw [BitVec.and_twoPow] at hsplit
  split at hsplit
  · exact .inr hsplit
  · exact .inl (by simpa using hsplit)

/-- A row of the `K` form selects two words only. -/
theorem eq_encode_of_selects_kForm {m : String} {w : Word} {c : Bool → Instr}
    (h : (⟨m, encode (c false), 0xFFFFFEFF#32⟩ : Row).selects w = true)
    (hk : encode (c false) ||| 0x100#32 = encode (c true)) : ∃ i, w = encode i := by
  rcases eq_or_eq_of_and_kMask (beq_iff_eq.mp h) with hw | hw
  · exact ⟨c false, hw⟩
  · exact ⟨c true, hw.trans hk⟩

/-- A row with the full mask selects its pattern only. -/
theorem eq_of_selects_fullMask {m : String} {w p : Word} (h : (⟨m, p, 0xFFFFFFFF#32⟩ : Row).selects w = true) : w = p :=
  BitVec.and_allOnes.symm.trans (beq_iff_eq.mp h)

/-- Every word that selects a row is the word of a command (R82). -/
theorem exists_eq_encode_of_selects {r : Row} {w : Word} (hr : r ∈ opcodeMap) (h : r.selects w = true) :
    ∃ i, w = encode i := by
  simp only [opcodeMap, List.mem_cons, List.not_mem_nil, or_false] at hr
  rcases hr with rfl | rfl | rfl | rfl | rfl | rfl | rfl | rfl | rfl
  · exact eq_encode_of_selects_kForm (c := .sieve) h rfl
  · exact eq_encode_of_selects_kForm (c := .xgcd) h rfl
  · exact ⟨.keyset, eq_of_selects_fullMask h⟩
  · exact ⟨.modsqr, eq_of_selects_fullMask h⟩
  · exact ⟨.modmul, eq_of_selects_fullMask h⟩
  · exact ⟨.modexp, eq_of_selects_fullMask h⟩
  · exact ⟨.crtsqrt, eq_of_selects_fullMask h⟩
  · exact ⟨.benc, eq_of_selects_fullMask h⟩
  · exact ⟨.bdec, eq_of_selects_fullMask h⟩

/-! ### The legal words -/

/-- Every command, in the order of the legal words of R82. -/
def Instr.all : List Instr :=
  [.sieve false, .xgcd false, .keyset, .modsqr, .modmul, .modexp, .crtsqrt, .benc, .bdec, .sieve true, .xgcd true]

theorem Instr.mem_all (i : Instr) : i ∈ Instr.all := by
  cases i with
  | sieve k | xgcd k => cases k <;> decide
  | _ => decide

/-- The legal words are those of the commands listed. -/
theorem exists_decode_ok_iff {w : Word} : (∃ i, decode w = .ok i) ↔ w ∈ Instr.all.map encode := by
  simp only [decode_eq_ok_iff, List.mem_map, Instr.mem_all, true_and, eq_comm (a := w)]

/-- The legal words written out, as R82 lists them. -/
theorem map_encode_all :
    Instr.all.map encode =
      [0x001#32, 0x002#32, 0x003#32, 0x004#32, 0x005#32, 0x006#32, 0x007#32, 0x008#32, 0x009#32,
       0x101#32, 0x102#32] := by
  decide

/-- Settles O3: a word is legal exactly if it is the word of a command, and rows are selected by such words alone. -/
theorem elevenLegalWords : Obligations.ElevenLegalWords := by
  unfold Obligations.ElevenLegalWords
  refine fun w => ⟨fun r hr hsel => ?_, fun i hi => ?_, map_encode_all ▸ exists_decode_ok_iff⟩
  · obtain ⟨i, rfl⟩ := exists_eq_encode_of_selects hr hsel
    exact ⟨i, decode_eq_ok_iff.mpr rfl, ((selects_encode_iff hr i).mp hsel).symm⟩
  · obtain rfl := decode_eq_ok_iff.mp hi
    obtain ⟨r, hr, hm⟩ := exists_row_of_mnemonic i
    exact ⟨r, hr, (selects_encode_iff hr i).mpr hm, hm⟩

end Sys2Proof
end

