-- ==== Sys2Proof/Proofs/Bezout.lean ====
section
/-! PROOFS. The Euclid recursion (R111) and the command `XGCD` (R110). -/

namespace Sys2Proof.Machine

/-! ### The recursion -/

@[simp] theorem xgcd_zero_right (a : Nat) : xgcd a 0 = ⟨a, 1, 0⟩ := rfl

/-- One round of the recursion (R111): a % b < b, so the fuel that is left bounds the rounds that follow. -/
theorem xgcd_of_pos (a : Nat) {b : Nat} (hb : 0 < b) :
    xgcd a b =
      ⟨(xgcd b (a % b)).g, (xgcd b (a % b)).y, (xgcd b (a % b)).x - (a / b : Nat) * (xgcd b (a % b)).y⟩ := by
  cases b with
  | zero => cases hb
  | succ n =>
    have hfuel : xgcdLoop n (n + 1) (a % (n + 1)) = xgcd (n + 1) (a % (n + 1)) :=
      xgcdLoop_fuel _ (Nat.le_of_lt_succ (Nat.mod_lt a hb)) le_rfl
    rw [xgcd, xgcdLoop, if_neg n.succ_ne_zero, hfuel]

/-- Settles O26: the base case by computation, the other by one round of the loop. -/
theorem xgcdRecursion : Obligations.XgcdRecursion := by
  unfold Obligations.XgcdRecursion
  exact ⟨xgcd_zero_right, fun a _ hb => xgcd_of_pos a hb⟩

/-! ### The gcd -/

/-- The recursion keeps the gcd: it is Euclid's, with the operands in the other order than `Nat.gcd` has them. -/
@[simp] theorem xgcd_g (a b : Nat) : (xgcd a b).g = Nat.gcd a b := by
  induction b, a using Nat.gcd.induction with
  | H0 a => rw [xgcd_zero_right, Nat.gcd_zero_right]
  | H1 b a hb ih => rw [xgcd_of_pos a hb, ih, Nat.gcd_comm a b, Nat.gcd_rec b a, Nat.gcd_comm]

/-! ### `XGCD` -/

section
variable {s : State} {k : Bool}

theorem exec_xgcd_done (hf : ¬ s.faulted) (hk : k = true → Nat.gcd s.xg.XG_A s.xg.XG_B = 1) :
    exec (.xgcd k) s = .next (finish (s.setXg (Nat.gcd s.xg.XG_A s.xg.XG_B)
      (xgcd s.xg.XG_A s.xg.XG_B).x (xgcd s.xg.XG_A s.xg.XG_B).y)) := by
  rw [exec_eq, ruleOf, xgcdRule_done (by rwa [xgcd_g]), complete_ok hf, xgcd_g]

/-- The fault that `XGCD.K` raises on a gcd other than 1, 0 included (R110). -/
theorem xgcdRule_notCoprime (h : Nat.gcd s.xg.XG_A s.xg.XG_B ≠ 1) : xgcdRule true s = .error .KEY_NOT_COPRIME := by
  rw [xgcdRule, if_pos ⟨rfl, by rwa [xgcd_g]⟩]

theorem exec_xgcd_notCoprime (hf : ¬ s.faulted) (h : Nat.gcd s.xg.XG_A s.xg.XG_B ≠ 1) :
    exec (.xgcd true) s = .next (faultEntry .KEY_NOT_COPRIME (encode (.xgcd true)) s) := by
  rw [exec_eq, ruleOf, xgcdRule_notCoprime h, complete_error hf]

end

theorem encode_xgcd : encode (.xgcd false) = 0x00000002#32 := by decide

theorem encode_xgcd_k : encode (.xgcd true) = 0x00000102#32 := by decide

/-- Settles O29, by the two ways in which `XGCD` ends: `K` = 0 or a gcd of 1, and `K` = 1 with another gcd. -/
theorem xgcdResult : Obligations.XgcdResult := by
  unfold Obligations.XgcdResult
  refine ⟨⟨encode_xgcd, encode_xgcd_k⟩, fun s k hf => ⟨fun hdone => ?_, fun hk hgcd => ?_⟩⟩
  · exact exec_xgcd_done hf fun hk => hdone.resolve_left (by simp [hk])
  · subst hk
    rw [exec_xgcd_notCoprime hf hgcd, encode_xgcd_k]

end Sys2Proof.Machine
end

