-- ==== Sys2Proof/Proofs/ModularPower.lean ====
section
/-! PROOFS. The square-and-multiply loop (R124) and the commands `MODSQR`, `MODMUL` and `MODEXP` (R121, R122, R123). -/

namespace Sys2Proof.Machine

/-! ### The power -/

/-- The bits below `n + 1` are bit `n`, at the top, over the bits below `n`. -/
theorem mod_two_pow_succ_eq (e n : Nat) : e % 2 ^ (n + 1) = e % 2 ^ n + 2 ^ n * (e.testBit n).toNat := by
  rw [pow_succ, Nat.mod_mul, ← Nat.toNat_testBit]

/-- One round of the loop, on a bit `c`: a squaring, and a multiplication exactly if the bit is set. -/
theorem modexpRound_modEq (b m r : Nat) (c : Bool) :
    (if c then (r * r % m) * b % m else r * r % m) ≡ r ^ 2 * b ^ c.toNat [MOD m] := by
  cases c with
  | true => simpa [sq] using (Nat.mod_modEq _ m).trans ((Nat.mod_modEq (r * r) m).mul_right b)
  | false => simpa [sq] using Nat.mod_modEq (r * r) m

/-- The loop's invariant: `n` rounds square the running result `n` times and multiply in the power of `b` whose exponent
the low `n` bits of `e` spell. -/
theorem modexpLoop_modEq (b e m n r : Nat) : modexpLoop b e m n r ≡ r ^ 2 ^ n * b ^ (e % 2 ^ n) [MOD m] := by
  induction n generalizing r with
  | zero => simp [modexpLoop, Nat.mod_one, Nat.ModEq.refl]
  | succ n ih =>
    rw [modexpLoop]
    refine (ih _).trans ?_
    have hround := ((modexpRound_modEq b m r (e.testBit n)).pow (2 ^ n)).mul_right (b ^ (e % 2 ^ n))
    have hexp : (r ^ 2 * b ^ (e.testBit n).toNat) ^ 2 ^ n * b ^ (e % 2 ^ n) =
        r ^ 2 ^ (n + 1) * b ^ (e % 2 ^ (n + 1)) := by
      rw [mod_two_pow_succ_eq]
      ring
    rwa [hexp] at hround

/-- The loop computes the power (R120): the bits of `e` below `bitlen e` are all of `e`, and the running result starts
from 1 modulo `m`. -/
theorem modexp_eq (b e : Nat) {m : Nat} (hm : 1 ≤ m) : modexp b e m = b ^ e % m := by
  have hlt : modexp b e m < m := modexpLoop_lt b e _ hm (Nat.mod_lt 1 hm)
  have hmod : modexp b e m ≡ b ^ e [MOD m] :=
    calc modexp b e m ≡ (1 % m) ^ 2 ^ bitlen e * b ^ (e % 2 ^ bitlen e) [MOD m] := modexpLoop_modEq b e m _ _
      _ ≡ 1 ^ 2 ^ bitlen e * b ^ (e % 2 ^ bitlen e) [MOD m] := ((Nat.mod_modEq 1 m).pow _).mul_right _
      _ = b ^ e := by rw [one_pow, one_mul, Nat.mod_eq_of_lt (lt_two_pow_bitlen e)]
  exact (Nat.mod_eq_of_lt hlt).symm.trans hmod

/-! ### The commands of the unit -/

section
variable {s : State} {i : Instr} {v : Nat}

/-- The unit's commands on a nonzero modulus: `MS_R` takes the value of the command's rule. -/
theorem exec_modRule_done (hr : ruleOf i s = modRule v s) (hf : ¬ s.faulted) (hm : s.ms.MS_M ≠ 0) :
    exec i s = .next (finish (s.setMsR v)) := by
  rw [exec_eq, hr, modRule_done hm, complete_ok hf]

theorem modRule_zero (hm : s.ms.MS_M = 0) : modRule v s = .error .MOD_ZERO := by
  rw [modRule, if_pos hm]

/-- The unit's commands on modulus 0 (R188). -/
theorem exec_modRule_zero (hr : ruleOf i s = modRule v s) (hf : ¬ s.faulted) (hm : s.ms.MS_M = 0) :
    exec i s = .next (faultEntry .MOD_ZERO (encode i) s) := by
  rw [exec_eq, hr, modRule_zero hm, complete_error hf]

end

theorem encode_modsqr : encode .modsqr = 0x00000004#32 := by decide

theorem encode_modmul : encode .modmul = 0x00000005#32 := by decide

theorem encode_modexp : encode .modexp = 0x00000006#32 := by decide

/-- `BENC` squares on an internal path (R126): however it ends, the registers of the unit stay. -/
theorem exec_benc_ms {s t : State} (h : exec .benc s = .next t) : t.ms = s.ms := by
  rw [exec_eq] at h
  rcases complete_cases h with ⟨-, rfl⟩ | ⟨-, c, -, rfl⟩ | ⟨-, u, hu, rfl⟩
  · exact reject_ms s
  · exact faultEntry_ms s c _
  · obtain ⟨-, rfl⟩ := bencRule_ok hu
    rw [finish_ms, State.setBlock_ms]

/-- Settles O33: the loop is the power, and `MODEXP` writes the loop's value or stops at modulus 0. -/
theorem modexpResult : Obligations.ModexpResult := by
  unfold Obligations.ModexpResult
  refine ⟨encode_modexp, fun b e m hm => modexp_eq b e hm, fun s hf hm => ?_, fun s hf hm => ?_⟩
  · rw [exec_modRule_done rfl hf hm, modexp_eq _ _ (Nat.one_le_iff_ne_zero.mpr hm)]
    rfl
  · rw [exec_modRule_zero rfl hf hm, encode_modexp]

/-- Settles O32, by the two ways in which a command of the unit ends, and by the frame of `BENC`. -/
theorem modularProductResults : Obligations.ModularProductResults := by
  unfold Obligations.ModularProductResults
  refine ⟨⟨encode_modsqr, encode_modmul⟩, fun s hf hm => ⟨?_, ?_⟩, fun s hf hm => ⟨?_, ?_⟩, fun s t => exec_benc_ms⟩
  · exact exec_modRule_done (i := .modsqr) rfl hf hm
  · exact exec_modRule_done (i := .modmul) rfl hf hm
  · rw [exec_modRule_zero rfl hf hm, encode_modsqr]
  · rw [exec_modRule_zero rfl hf hm, encode_modmul]

end Sys2Proof.Machine
end

