-- ==== Sys2Proof/Proofs/CrtSqrt.lean ====
section
/-! PROOFS. The roots (R130), the CRT combination (R132), the tests of the key (R193) and the command `CRTSQRT` (R131). -/

namespace Sys2Proof.Machine

/-! ### The roots -/

theorem rootp_eq (c : Nat) {p : Nat} (hp : 1 ≤ p) : rootp c p = c ^ ((p + 1) / 4) % p := modexp_eq c _ hp

theorem one_le_of_mod_four_eq_three {p : Nat} (h : p % 4 = 3) : 1 ≤ p := by omega

section
variable {s : State}

theorem State.rootR_eq (h : s.keyCongruent) (c : Nat) :
    s.rootR c = c ^ ((s.key.K_P + 1) / 4) % s.key.K_P :=
  rootp_eq c (one_le_of_mod_four_eq_three h.1)

theorem State.rootS_eq (h : s.keyCongruent) (c : Nat) :
    s.rootS c = c ^ ((s.key.K_Q + 1) / 4) % s.key.K_Q :=
  rootp_eq c (one_le_of_mod_four_eq_three h.2)

/-- A congruent key has no prime 0, so the candidates are reduced by a positive modulus. -/
theorem State.modulus_pos (h : s.keyCongruent) : 0 < s.key.K_P * s.key.K_Q :=
  Nat.mul_pos (one_le_of_mod_four_eq_three h.1) (one_le_of_mod_four_eq_three h.2)

end

/-! ### The CRT combination -/

/-- The residue of an integer modulo a positive `n`, taken as a natural number, is that residue still. -/
theorem natCast_toNat_emod {n : Nat} (hn : 0 < n) (z : Int) : ((z % n).toNat : Int) = z % n :=
  Int.toNat_of_nonneg (Int.emod_nonneg z (Int.natCast_ne_zero.mpr hn.ne'))

theorem toNat_emod_lt {n : Nat} (hn : 0 < n) (z : Int) : (z % n).toNat < n := by
  rw [← Int.ofNat_lt, natCast_toNat_emod hn]
  exact Int.emod_lt_of_pos z (Int.natCast_pos.mpr hn)

section
variable {p q : Nat} (a b : Int) (r s : Nat)

/-- The first candidate is the sum of the two terms, reduced once (R132). -/
theorem crt4_v0_cast (h : 0 < p * q) :
    ((crt4 p q a b r s).v0 : Int) = (a * p * s + b * q * r) % (p * q : Nat) :=
  natCast_toNat_emod h _

/-- The second candidate is the difference of the two terms, reduced once (R132). -/
theorem crt4_v1_cast (h : 0 < p * q) :
    ((crt4 p q a b r s).v1 : Int) = (a * p * s - b * q * r) % (p * q : Nat) :=
  natCast_toNat_emod h _

theorem crt4_v0_lt (h : 0 < p * q) : (crt4 p q a b r s).v0 < p * q := toNat_emod_lt h _

theorem crt4_v1_lt (h : 0 < p * q) : (crt4 p q a b r s).v1 < p * q := toNat_emod_lt h _

end

/-! ### The tests of the key -/

section
variable {s : State}

/-- The first test (R184). -/
theorem keyTests_congruence (h : ¬ s.keyCongruent) : keyTests s = .error .KEY_CONGRUENCE := by
  rw [keyTests, if_pos h]

/-- The second test (R187), reached by a congruent key only. -/
theorem keyTests_width (h : s.keyCongruent) (hw : 2 ^ s.par.W ≤ s.key.K_P * s.key.K_Q) :
    keyTests s = .error .WIDTH := by
  rw [keyTests, if_neg (not_not.mpr h), if_pos hw]

end

/-! ### `CRTSQRT` -/

section
variable {s : State} {c : FaultCode}

theorem exec_crtsqrt_done (hf : ¬ s.faulted) (h : s.keyCongruent) (hw : s.key.K_P * s.key.K_Q < 2 ^ s.par.W) :
    exec .crtsqrt s = .next (finish (s.withCandidates s.cr.CR_C)) := by
  rw [exec_eq, ruleOf, crtsqrtRule_done h hw, complete_ok hf]

/-- `CRTSQRT` raises the fault of the tests of the key. -/
theorem exec_crtsqrt_fault (hf : ¬ s.faulted) (h : keyTests s = .error c) :
    exec .crtsqrt s = .next (faultEntry c (encode .crtsqrt) s) := by
  rw [exec_eq, ruleOf, crtsqrtRule, h, complete_error hf]

end

theorem encode_crtsqrt : encode .crtsqrt = 0x00000007#32 := by decide

/-- Settles O35: `x` and `y` are the first two candidates of `CR_C`, and the two faults are those of the key's tests. -/
theorem crtsqrtResult : Obligations.CrtsqrtResult := by
  unfold Obligations.CrtsqrtResult
  rintro s _ _ _ _ _ _ _ hf rfl rfl rfl rfl rfl rfl rfl
  refine ⟨fun hp hq hw => ?_, fun hpq => ?_, fun hp hq hw => ?_⟩
  · have hk : s.keyCongruent := ⟨hp, hq⟩
    have hn := State.modulus_pos hk
    rw [← State.rootR_eq hk, ← State.rootS_eq hk]
    exact ⟨(s.candidates s.cr.CR_C).v0, (s.candidates s.cr.CR_C).v1,
      crt4_v0_cast _ _ _ _ hn, crt4_v1_cast _ _ _ _ hn, crt4_v0_lt _ _ _ _ hn, crt4_v1_lt _ _ _ _ hn,
      exec_crtsqrt_done hf hk hw⟩
  · rw [exec_crtsqrt_fault hf (keyTests_congruence (not_and_or.mpr hpq)), encode_crtsqrt]
  · rw [exec_crtsqrt_fault hf (keyTests_width ⟨hp, hq⟩ hw), encode_crtsqrt]

end Sys2Proof.Machine
end

