-- ==== Sys2Proof/Proofs/Codec.lean ====
section
/-! PROOFS. The redundancy codec: minimal binary strings and their halves (R10), `REncode` (R141) and `RDecode` (R143). -/

namespace Sys2Proof.Machine

/-! ### Strings and their values (R10) -/

/-- A number below `2 ^ k` has a string of at most `k` bits. -/
theorem bitlen_le_of_lt {v k : Nat} (h : v < 2 ^ k) : bitlen v ≤ k := by
  by_cases hv : v = 0
  · subst hv
    exact Nat.zero_le k
  · obtain ⟨hlow, -, -⟩ := bitlen_bounds hv
    have : bitlen v - 1 < k := (Nat.pow_lt_pow_iff_right (by norm_num)).mp (hlow.trans_lt h)
    omega

theorem nbits_of_pos {v : Nat} (h : 1 ≤ v) : nbits v = bitlen v :=
  max_eq_right (bitlen_bounds (Nat.one_le_iff_ne_zero.mp h)).2.2

theorem binstr_of_pos {v : Nat} (h : 1 ≤ v) : binstr v = bitsFrom v (bitlen v) :=
  if_neg (Nat.one_le_iff_ne_zero.mp h)

theorem binstr_length (v : Nat) : (binstr v).length = nbits v := by
  rcases Nat.eq_zero_or_pos v with rfl | hv
  · rfl
  · rw [binstr_of_pos hv, bitsFrom_length, nbits_of_pos hv]

/-- The minimal string of a number spells the number. -/
theorem intval_binstr (v : Nat) : intval (binstr v) = v := by
  rcases Nat.eq_zero_or_pos v with rfl | hv
  · rfl
  · rw [binstr_of_pos hv, intval_bitsFrom, Nat.mod_eq_of_lt (lt_two_pow_bitlen v)]

/-- The last `t.length` characters of a string are its value's remainder. -/
theorem intval_append_mod (s t : List Bool) : intval (s ++ t) % 2 ^ t.length = intval t := by
  rw [intval_append, Nat.mul_add_mod_self_right, Nat.mod_eq_of_lt (intval_lt t)]

/-- The characters before the last `t.length` are its value's quotient. -/
theorem intval_append_div (s t : List Bool) : intval (s ++ t) / 2 ^ t.length = intval s := by
  rw [intval_append, Nat.mul_comm, Nat.mul_add_div (by positivity), Nat.div_eq_of_lt (intval_lt t), Nat.add_zero]

/-- Strings of one length are told apart by the integers they spell: the ground of R143's comparison of integers. -/
theorem intval_inj {s t : List Bool} (hlen : s.length = t.length) : intval s = intval t ↔ s = t := by
  refine ⟨fun h => ?_, congrArg intval⟩
  induction s generalizing t with
  | nil => exact (List.length_eq_zero_iff.mp hlen.symm).symm
  | cons b s ih =>
    cases t with
    | nil => exact absurd hlen (Nat.succ_ne_zero _)
    | cons c t =>
      have hlen' : s.length = t.length := Nat.succ.inj hlen
      have hrest : intval s = intval t := by
        rw [← intval_append_mod [b] s, ← intval_append_mod [c] t, ← hlen']
        exact congrArg (· % 2 ^ s.length) h
      rw [intval_cons, intval_cons, hrest, hlen'] at h
      have hhead : b.toNat = c.toNat := Nat.eq_of_mul_eq_mul_right (by positivity) (Nat.add_right_cancel h)
      rw [ih hlen' hrest, Function.LeftInverse.injective Bool.ofNat_toNat hhead]

/-! ### Encode (R141) -/

theorem REncode_of_pos {b : Nat} (h : 1 ≤ b) : REncode b = b * 2 ^ bitlen b + b :=
  if_neg (Nat.one_le_iff_ne_zero.mp h)

theorem REncode_eq_intval (b : Nat) : REncode b = intval (binstr b ++ binstr b) := by
  rcases Nat.eq_zero_or_pos b with rfl | hb
  · rfl
  · rw [REncode_of_pos hb, intval_append, intval_binstr, binstr_length, nbits_of_pos hb]

theorem REncode_lt (b : Nat) : REncode b < 2 ^ (nbits b + nbits b) := by
  have h := intval_lt (binstr b ++ binstr b)
  rwa [← REncode_eq_intval, List.length_append, binstr_length] at h

/-- The doubled string of `b ≥ 1` starts with a 1, so none of its characters can be left out. -/
theorem bitlen_REncode {b : Nat} (h : 1 ≤ b) : bitlen (REncode b) = 2 * bitlen b := by
  obtain ⟨hlow, -, hlen⟩ := bitlen_bounds (Nat.one_le_iff_ne_zero.mp h)
  have hk : bitlen b - 1 + bitlen b + 1 = 2 * bitlen b := by omega
  have hlower : 2 ^ (bitlen b - 1 + bitlen b) ≤ REncode b :=
    calc 2 ^ (bitlen b - 1 + bitlen b) = 2 ^ (bitlen b - 1) * 2 ^ bitlen b := pow_add _ _ _
      _ ≤ b * 2 ^ bitlen b := Nat.mul_le_mul_right _ hlow
      _ ≤ REncode b := REncode_of_pos h ▸ Nat.le_add_right _ _
  have hupper : REncode b < 2 ^ (bitlen b - 1 + bitlen b + 1) := by
    rw [hk, two_mul, ← nbits_of_pos h]
    exact REncode_lt b
  rw [bitlen_eq hlower hupper, hk]

theorem one_le_REncode {b : Nat} (h : 1 ≤ b) : 1 ≤ REncode b := by
  rw [REncode_of_pos h]
  omega

/-- Two strings of one length and one value: the minimal string of the encoding, and the doubled string. -/
theorem binstr_REncode {b : Nat} (h : 1 ≤ b) : binstr (REncode b) = binstr b ++ binstr b := by
  have hlen : (binstr (REncode b)).length = (binstr b ++ binstr b).length := by
    rw [List.length_append, binstr_length, binstr_length, nbits_of_pos (one_le_REncode h), nbits_of_pos h,
      bitlen_REncode h, two_mul]
  rw [← intval_inj hlen, intval_binstr, REncode_eq_intval]

/-- The encoding of a byte fits 16 bits (R141). -/
theorem REncode_le_of_byte {b : Nat} (h : b ≤ 255) : REncode b ≤ 65535 := by
  have hn : nbits b ≤ 8 := max_le (by norm_num) (bitlen_le_of_lt (Nat.lt_succ_of_le h))
  have hlt : REncode b < 2 ^ 16 := (REncode_lt b).trans_le (Nat.pow_le_pow_right (by norm_num) (by omega))
  omega

/-- Settles O42, by the value of the doubled string and by strings of one length being told apart by their values. -/
theorem encodeDoublesTheString : Obligations.EncodeDoublesTheString := by
  unfold Obligations.EncodeDoublesTheString
  exact ⟨REncode_eq_intval, fun _ hb => ⟨binstr_REncode hb, bitlen_REncode hb⟩, rfl, fun _ => REncode_le_of_byte⟩

/-! ### Decode (R143) -/

/-- The three tests of R143, on integers, and the value accepted. -/
theorem RDecode_eq_some_iff (v h : Nat) :
    RDecode v = some h ↔
      2 ≤ nbits v ∧ nbits v % 2 = 0 ∧ v / 2 ^ (nbits v / 2) = v % 2 ^ (nbits v / 2) ∧ h = v / 2 ^ (nbits v / 2) := by
  simp only [RDecode]
  split_ifs with hshort hodd hne
  · simp [hshort]
  · simp [hodd]
  · simp [hne]
  · rw [not_not] at hne
    simp only [Option.some.injEq, hne, true_and]
    constructor
    · rintro rfl
      exact ⟨by omega, by omega, rfl⟩
    · rintro ⟨-, -, rfl⟩
      rfl

section
variable {v : Nat} (heven : nbits v % 2 = 0)
include heven

theorem binstr_take_half_length : ((binstr v).take (nbits v / 2)).length = nbits v / 2 := by
  rw [List.length_take, binstr_length]
  omega

theorem binstr_drop_half_length : ((binstr v).drop (nbits v / 2)).length = nbits v / 2 := by
  rw [List.length_drop, binstr_length]
  omega

/-- `hi` of R143 is the first half of the string. -/
theorem intval_first_half : intval ((binstr v).take (nbits v / 2)) = v / 2 ^ (nbits v / 2) := by
  have h := intval_append_div ((binstr v).take (nbits v / 2)) ((binstr v).drop (nbits v / 2))
  rw [List.take_append_drop, intval_binstr, binstr_drop_half_length heven] at h
  exact h.symm

/-- `lo` of R143 is the second half of the string. -/
theorem intval_second_half : intval ((binstr v).drop (nbits v / 2)) = v % 2 ^ (nbits v / 2) := by
  have h := intval_append_mod ((binstr v).take (nbits v / 2)) ((binstr v).drop (nbits v / 2))
  rw [List.take_append_drop, intval_binstr, binstr_drop_half_length heven] at h
  exact h.symm

/-- Comparing the integers `hi` and `lo` is comparing the two halves. -/
theorem halves_eq_iff :
    (binstr v).take (nbits v / 2) = (binstr v).drop (nbits v / 2) ↔ v / 2 ^ (nbits v / 2) = v % 2 ^ (nbits v / 2) := by
  rw [← intval_inj ((binstr_take_half_length heven).trans (binstr_drop_half_length heven).symm),
    intval_first_half heven, intval_second_half heven]

end

/-- Settles O43: the tests of `RDecode` on integers are those on the two halves of the string. -/
theorem decodeTestsTheString : Obligations.DecodeTestsTheString := by
  unfold Obligations.DecodeTestsTheString
  intro v h
  rw [RDecode_eq_some_iff, binstr_length]
  refine and_congr_right fun _ => and_congr_right fun heven => ?_
  rw [halves_eq_iff heven, intval_first_half heven]

end Sys2Proof.Machine
end

