-- ==== Sys2Proof/Proofs/Selection.lean ====
section
/-! PROOFS. The first-match selection (R161): what a walk over the candidates can answer, and from it each of the three outcomes. -/

namespace Sys2Proof.Machine

/-- The candidate at `i` is the first one that decodes, with the half `h`. -/
def FirstDecoded (vs : List Nat) (i h : Nat) : Prop :=
  (∃ x, vs[i]? = some x ∧ RDecode x = some h) ∧ ∀ j x, j < i → vs[j]? = some x → RDecode x = none

theorem firstDecoded_cons_some {v h : Nat} (vs : List Nat) (hv : RDecode v = some h) : FirstDecoded (v :: vs) 0 h :=
  ⟨⟨v, rfl, hv⟩, fun j _ hj => absurd hj j.not_lt_zero⟩

theorem FirstDecoded.cons_none {v i h : Nat} {vs : List Nat} (hv : RDecode v = none) (hf : FirstDecoded vs i h) :
    FirstDecoded (v :: vs) (i + 1) h := by
  obtain ⟨hat, hbefore⟩ := hf
  refine ⟨hat, fun j x hj hx => ?_⟩
  cases j with
  | zero =>
    obtain rfl : v = x := Option.some.inj hx
    exact hv
  | succ j => exact hbefore j x (Nat.lt_of_succ_lt_succ hj) hx

/-- The first candidate that decodes is determined: of two indices, the smaller decodes and so refutes the larger. -/
theorem FirstDecoded.iff_eq {i i' h h' : Nat} {vs : List Nat} (hf : FirstDecoded vs i h) :
    FirstDecoded vs i' h' ↔ i = i' ∧ h = h' := by
  refine ⟨fun hf' => ?_, fun ⟨hi, hh⟩ => hi ▸ hh ▸ hf⟩
  obtain ⟨⟨x, hx, hdec⟩, hbefore⟩ := hf
  obtain ⟨⟨x', hx', hdec'⟩, hbefore'⟩ := hf'
  obtain hlt | rfl | hgt := lt_trichotomy i i'
  · simp [hbefore' i x hlt hx] at hdec
  · obtain rfl : x = x' := Option.some.inj (hx.symm.trans hx')
    exact ⟨rfl, Option.some.inj (hdec.symm.trans hdec')⟩
  · simp [hbefore i' x' hgt hx'] at hdec'

theorem not_firstDecoded_of_forall_none {i h : Nat} {vs : List Nat} (hnone : ∀ x ∈ vs, RDecode x = none) :
    ¬ FirstDecoded vs i h := by
  rintro ⟨⟨x, hx, hdec⟩, -⟩
  simp [hnone x (List.mem_of_getElem? hx)] at hdec

/-- All that the walk from index `n` can answer: the first half decoded, tested against 255, or a miss where nothing decodes. -/
theorem selectFrom_cases (n : Nat) (vs : List Nat) :
    (∃ i h, FirstDecoded vs i h ∧ selectFrom n vs = if h ≤ 255 then .hit (n + i) h else .range (n + i) h) ∨
      (∀ x ∈ vs, RDecode x = none) ∧ selectFrom n vs = .miss := by
  induction vs generalizing n with
  | nil => exact .inr ⟨fun x hx => absurd hx List.not_mem_nil, rfl⟩
  | cons v vs ih =>
    cases hv : RDecode v with
    | some h => exact .inl ⟨0, h, firstDecoded_cons_some vs hv, selectFrom_cons_some n vs hv⟩
    | none =>
      rw [selectFrom_cons_none n vs hv]
      obtain ⟨i, h, hf, hsel⟩ | ⟨hnone, hsel⟩ := ih (n + 1)
      · exact .inl ⟨i + 1, h, hf.cons_none hv, by rw [hsel, Nat.add_right_comm n 1 i, Nat.add_assoc]⟩
      · exact .inr ⟨List.forall_mem_cons.mpr ⟨hv, hnone⟩, hsel⟩

theorem select4_cases (v : Candidates) :
    (∃ i h, FirstDecoded v.toList i h ∧ select4 v = if h ≤ 255 then .hit i h else .range i h) ∨
      (∀ x ∈ v.toList, RDecode x = none) ∧ select4 v = .miss := by
  simpa only [select4, Nat.zero_add] using selectFrom_cases 0 v.toList

theorem select4_eq_hit_iff (v : Candidates) (i h : Nat) :
    select4 v = .hit i h ↔ FirstDecoded v.toList i h ∧ h ≤ 255 := by
  obtain ⟨a, k, hf, hsel⟩ | ⟨hnone, hsel⟩ := select4_cases v
  · rw [hsel, hf.iff_eq]
    split_ifs <;> simp <;> omega
  · simp [hsel, not_firstDecoded_of_forall_none hnone]

theorem select4_eq_range_iff (v : Candidates) (i h : Nat) :
    select4 v = .range i h ↔ FirstDecoded v.toList i h ∧ 255 < h := by
  obtain ⟨a, k, hf, hsel⟩ | ⟨hnone, hsel⟩ := select4_cases v
  · rw [hsel, hf.iff_eq]
    split_ifs <;> simp <;> omega
  · simp [hsel, not_firstDecoded_of_forall_none hnone]

theorem select4_eq_miss_iff (v : Candidates) : select4 v = .miss ↔ ∀ x ∈ v.toList, RDecode x = none := by
  obtain ⟨a, k, hf, hsel⟩ | ⟨hnone, hsel⟩ := select4_cases v
  · refine iff_of_false ?_ fun hnone => not_firstDecoded_of_forall_none hnone hf
    rw [hsel]
    split_ifs <;> simp
  · exact iff_of_true hsel hnone

/-- Settles O47: by `selectFrom_cases` the walk answers from the first candidate that decodes, and there is only one such. -/
theorem firstMatchSelected : Obligations.FirstMatchSelected := by
  unfold Obligations.FirstMatchSelected
  intro v
  refine ⟨fun i h => ?_, fun i h => ?_, select4_eq_miss_iff v⟩
  · rw [select4_eq_hit_iff, FirstDecoded, and_assoc, and_comm (b := h ≤ 255)]
  · rw [select4_eq_range_iff, FirstDecoded, and_assoc, and_comm (b := 255 < h)]

end Sys2Proof.Machine
end

