-- ==== Sys2Proof/Proofs/Exceptions.lean ====
section
/-! PROOFS. The faults (R181): the illegal words (R84, R182), and the first test of the commands that raise `MOD_ZERO` (R188)
and `KEY_CONGRUENCE` (R184). -/

namespace Sys2Proof

/-! ### The illegal words -/

/-- The fields of a legal word (R81, R84), as arithmetic of the fields. -/
theorem Fields.wf_iff (f : Fields) :
    f.wf = true ↔ f.zero = 0#23 ∧ (1 ≤ f.opc.toNat ∧ f.opc.toNat ≤ 9) ∧ (f.k = 0#1 ∨ f.opc.toNat ≤ 2) := by
  simp [Fields.wf, Fields.zeroOk, Fields.opcOk, Fields.kOk, and_assoc]

/-- The three grounds of R84 are what makes fields ill-formed. -/
theorem Fields.not_wf_iff (f : Fields) :
    ¬ f.wf = true ↔
      f.zero ≠ 0#23 ∨ f.opc = 0#8 ∨ 0x0A ≤ f.opc.toNat ∨ (f.k = 1#1 ∧ 0x03 ≤ f.opc.toNat ∧ f.opc.toNat ≤ 0x09) := by
  rw [f.wf_iff, not_and_or, not_and_or]
  refine or_congr Iff.rfl ?_
  have hopc : f.opc = 0#8 ↔ f.opc.toNat = 0 := BitVec.toNat_inj.symm
  rw [hopc]
  rcases BitVec.eq_zero_or_eq_one f.k with hk | hk
  · simp only [hk, true_or, not_true_eq_false, BitVec.reduceEq, false_and, or_false]
    omega
  · simp only [hk, BitVec.reduceEq, false_or, true_and]
    omega

/-- Every legal `OPC`, with a `K` that it allows, is written by a command (R82, R83): all nine with `K` = 0, and two with
either `K`. -/
theorem Fields.exists_instr_of_wf {f : Fields} (h : f.wf = true) : ∃ i : Instr, i.fields = f := by
  obtain ⟨zero, k, opc⟩ := f
  obtain ⟨rfl, hrange, hk⟩ :
      zero = 0#23 ∧ (1 ≤ opc.toNat ∧ opc.toNat ≤ 9) ∧ (k = 0#1 ∨ opc.toNat ≤ 2) := (Fields.wf_iff _).mp h
  rcases hk with rfl | hk
  · have hopc : opc = 1#8 ∨ opc = 2#8 ∨ opc = 3#8 ∨ opc = 4#8 ∨ opc = 5#8 ∨ opc = 6#8 ∨ opc = 7#8 ∨ opc = 8#8 ∨
        opc = 9#8 := by
      simp only [← BitVec.toNat_inj, BitVec.reduceToNat]
      omega
    rcases hopc with rfl | rfl | rfl | rfl | rfl | rfl | rfl | rfl | rfl
    exacts [⟨.sieve false, rfl⟩, ⟨.xgcd false, rfl⟩, ⟨.keyset, rfl⟩, ⟨.modsqr, rfl⟩, ⟨.modmul, rfl⟩, ⟨.modexp, rfl⟩,
      ⟨.crtsqrt, rfl⟩, ⟨.benc, rfl⟩, ⟨.bdec, rfl⟩]
  · have hopc : opc = 1#8 ∨ opc = 2#8 := by
      simp only [← BitVec.toNat_inj, BitVec.reduceToNat]
      omega
    rcases hopc with rfl | rfl
    · exact ⟨.sieve (k == 1#1), by rw [Instr.fields, Instr.kBit, ofBool_beq_one, Instr.opc]⟩
    · exact ⟨.xgcd (k == 1#1), by rw [Instr.fields, Instr.kBit, ofBool_beq_one, Instr.opc]⟩

/-- The legal words are those with legal fields (R84, R91). -/
theorem exists_decode_ok_iff_wf {w : Word} : (∃ i, decode w = .ok i) ↔ (fieldsOf w).wf = true := by
  simp only [decode_eq_ok_iff, ← fieldsOf_eq_fields_iff]
  constructor
  · rintro ⟨i, hi⟩
    obtain ⟨hwf, -⟩ := encodesItsRow i
    rw [hi]
    exact hwf
  · intro h
    obtain ⟨i, hi⟩ := Fields.exists_instr_of_wf h
    exact ⟨i, hi.symm⟩

/-- The decoder is total (R84): a word that is no command's is rejected. -/
theorem exists_decode_error_iff {w : Word} : (∃ e, decode w = .error e) ↔ ¬ ∃ i, decode w = .ok i := by
  cases decode w <;> simp

end Sys2Proof

namespace Sys2Proof.Machine

section
variable {s : State} {w : Word} {e : Illegal}

theorem doIssue_illegal (hf : ¬ s.faulted) (he : decode w = .error e) :
    doIssue w s = .next (faultEntry .ILLEGAL_CMD w s) := by
  rw [doIssue, if_neg hf, he]

/-- One step on an issued word that is illegal (R182). -/
theorem step_issue_illegal {rest : List Transaction} (hp : s.port = .issue w :: rest) (hf : ¬ s.faulted)
    (he : decode w = .error e) : step s = .next (faultEntry .ILLEGAL_CMD w (s.withPort rest)) := by
  rw [step_performs hp rfl, perform]
  exact doIssue_illegal (s := s.withPort rest) hf he

end

/-- Settles O4: an illegal word is one whose fields are ill-formed, and fault entry on it writes the latch only. -/
theorem illegalWordsFault : Obligations.IllegalWordsFault := by
  unfold Obligations.IllegalWordsFault
  refine fun w => ⟨?_, fun s rest hp hf ⟨_, he⟩ => step_issue_illegal hp hf he⟩
  rw [exists_decode_error_iff, exists_decode_ok_iff_wf]
  exact (fieldsOf w).not_wf_iff

/-! ### A command and its rule's fault -/

section
variable {s t : State} {i : Instr} {c : FaultCode}

/-- The fault that a command's rule raises is taken (R190). -/
theorem exec_fault (hf : ¬ s.faulted) (h : ruleOf i s = .error c) :
    exec i s = .next (faultEntry c (encode i) s) := by
  rw [exec_eq, h, complete_error hf]

/-- A command answers no fault but its rule's. -/
theorem ruleOf_error_of_exec (h : exec i s = .next t) (ha : t.answer = .completion (.fault c)) :
    ruleOf i s = .error c := by
  rw [exec_eq] at h
  rcases complete_cases h with ⟨-, rfl⟩ | ⟨-, d, hd, rfl⟩ | ⟨-, u, -, rfl⟩
  · simp at ha
  · obtain rfl : d = c := by simpa using ha
    exact hd
  · simp at ha

/-! ### `MOD_ZERO` -/

theorem bencRule_zero (h : s.be.BE_N = 0) : bencRule s = .error .MOD_ZERO := by
  simp only [bencRule, if_pos h]

/-- The commands whose rule raises `MOD_ZERO`, and when (R188). -/
theorem ruleOf_eq_modZero_iff :
    ruleOf i s = .error .MOD_ZERO ↔
      (i = .modsqr ∨ i = .modmul ∨ i = .modexp) ∧ s.ms.MS_M = 0 ∨ i = .benc ∧ s.be.BE_N = 0 := by
  constructor
  · intro h
    cases i with
    | modsqr | modmul | modexp => simpa using modRule_error h
    | benc => simpa using bencRule_error h
    | sieve k => simpa using sieveRule_error h
    | xgcd k => simpa using xgcdRule_error h
    | keyset => simpa using keysetRule_error h
    | crtsqrt => simpa using crtsqrtRule_error h
    | bdec => simpa using bdecRule_error h
  · rintro (⟨rfl | rfl | rfl, hm⟩ | ⟨rfl, hn⟩)
    · exact modRule_zero hm
    · exact modRule_zero hm
    · exact modRule_zero hm
    · exact bencRule_zero hn

/-! ### `KEY_CONGRUENCE` -/

theorem keysetRule_congruence (h : ¬ s.keyCongruent) : keysetRule s = .error .KEY_CONGRUENCE := by
  rw [keysetRule, if_pos h]

theorem crtsqrtRule_keyTests (h : keyTests s = .error c) : crtsqrtRule s = .error c := by
  rw [crtsqrtRule, h]

theorem bdecRule_keyTests (h : keyTests s = .error c) : bdecRule s = .error c := by
  rw [bdecRule, h]

/-- The congruence is the first test of the commands that use the key (R184). -/
theorem ruleOf_keyCongruence (hi : i = .keyset ∨ i = .crtsqrt ∨ i = .bdec) (h : ¬ s.keyCongruent) :
    ruleOf i s = .error .KEY_CONGRUENCE := by
  rcases hi with rfl | rfl | rfl
  · exact keysetRule_congruence h
  · exact crtsqrtRule_keyTests (keyTests_congruence h)
  · exact bdecRule_keyTests (keyTests_congruence h)

end

/-- Settles O34, by where the rules raise `MOD_ZERO`: a fault that a command answers is the one its rule raised. -/
theorem modZeroFaults : Obligations.ModZeroFaults := by
  unfold Obligations.ModZeroFaults
  exact ⟨fun s i hf hz => exec_fault hf (ruleOf_eq_modZero_iff.mpr hz),
    fun s t i h ha => ruleOf_eq_modZero_iff.mp (ruleOf_error_of_exec h ha)⟩

/-- Settles O36: the three rules raise `KEY_CONGRUENCE` before any other fault. -/
theorem keyCongruenceFaults : Obligations.KeyCongruenceFaults := by
  unfold Obligations.KeyCongruenceFaults
  exact fun s i hf hi hpq => exec_fault hf (ruleOf_keyCongruence hi (not_and_or.mpr hpq))

end Sys2Proof.Machine
end

