-- ==== Sys2Proof/Proofs/Commands.lean ====
section
/-! PROOFS. Command words (R81, R91), and what every command has in common: how it ends (R180, R190, R193), what it leaves
unchanged (R21, R126, R215), and that a `DONE` command issued again changes nothing (R68). -/

namespace Sys2Proof.Machine

/-! ### Command words -/

/-- Settles O2: `decode_eq_ok_iff` read in both directions. -/
theorem decodeEncodeInverse : Obligations.DecodeEncodeInverse := by
  unfold Obligations.DecodeEncodeInverse
  exact ⟨fun _ _ => decode_eq_ok_iff.mpr rfl, fun _ _ h => decode_eq_ok_iff.mp h⟩

/-- Settles O1, by computation. -/
theorem sampleWordsDecode : Obligations.SampleWordsDecode := by
  unfold Obligations.SampleWordsDecode
  decide

/-- Settles O16, by computation. -/
theorem faultCodeNumbers : Obligations.FaultCodeNumbers := by
  unfold Obligations.FaultCodeNumbers
  decide

/-! ### How a command ends -/

section
variable {s t u : State} {i : Instr} {c : FaultCode}

/-- The three ways in which a command ends (R180), by what its rule gives. -/
theorem exec_cases (h : exec i s = .next t) :
    (s.faulted ∧ t = reject s) ∨
    (¬ s.faulted ∧ ∃ c, ruleOf i s = .error c ∧ t = faultEntry c (encode i) s) ∨
    (¬ s.faulted ∧ ∃ u, ruleOf i s = .ok u ∧ t = finish u) :=
  complete_cases (exec_eq i s ▸ h)

theorem exec_done (hf : ¬ s.faulted) (h : ruleOf i s = .ok u) : exec i s = .next (finish u) := by
  rw [exec_eq, h, complete_ok hf]

/-- A command that answers `DONE` was not rejected, and its rule gave the state that it leaves. -/
theorem ruleOf_ok_of_exec_done (h : exec i s = .next t) (ha : t.answer = .completion .done) :
    ¬ s.faulted ∧ ∃ u, ruleOf i s = .ok u ∧ t = finish u := by
  rcases exec_cases h with ⟨-, rfl⟩ | ⟨-, c, -, rfl⟩ | hdone
  · simp at ha
  · simp at ha
  · exact hdone

/-- A command that answers a fault has set the latch and done nothing else. -/
theorem eq_faultEntry_of_exec_fault (h : exec i s = .next t) (ha : t.answer = .completion (.fault c)) :
    t = faultEntry c (encode i) s := by
  rcases exec_cases h with ⟨-, rfl⟩ | ⟨-, d, -, rfl⟩ | ⟨-, u, -, rfl⟩
  · simp at ha
  · obtain rfl : d = c := by simpa using ha
    rfl
  · simp at ha

end

/-- Settles O15: fault entry is the record update that the statement writes out. -/
theorem faultEntryPrecise : Obligations.FaultEntryPrecise := by
  unfold Obligations.FaultEntryPrecise
  exact fun i s t c h ha => eq_faultEntry_of_exec_fault h ha

/-! ### What a command leaves unchanged -/

/-- What the registers hold that the host writes and that are no command's destination: all `RW` ones but the coefficients
of the key and `CR_C` (R215). -/
def State.inputs (s : State) : List Nat × List (BitVec 8) × Block × BitVec 1 :=
  ([s.ms.MS_A, s.ms.MS_B, s.ms.MS_E, s.ms.MS_M, s.xg.XG_A, s.xg.XG_B, s.key.K_P, s.key.K_Q, s.be.BE_N, s.sv.SV_MIN,
    s.sv.SV_MAX], [s.be.BE_BYTE, s.ctl.PHOLD], s.bd.BD_BLK, s.ctl.CTRL)

theorem regValue_eq_of_inputs {s t : State} (h : t.inputs = s.inputs) (r : RegName) (hw : r.writable = true)
    (hA : r ≠ .K_A) (hB : r ≠ .K_B) (hC : r ≠ .CR_C) : t.regValue r = s.regValue r := by
  simp only [State.inputs, Prod.mk.injEq, List.cons.injEq] at h
  cases r with
  | K_A => exact absurd rfl hA
  | K_B => exact absurd rfl hB
  | CR_C => exact absurd rfl hC
  | MS_R | XG_G | XG_X | XG_Y | CR_R | CR_S | CAND0 | CAND1 | CAND2 | CAND3 | BE_M | BE_BLK | BD_BYTE | BD_STAT | PCOUNT
  | STATUS | FCODE | FCMD => cases hw
  | _ => simp only [State.regValue, h]

/-- What the command `i` leaves unchanged between `s` and `t`: every register but its destinations and the latch, both
memories unless it is `SIEVE`, and the model's own fields but the answer (R21, R22, R126, R215). -/
structure Frame (i : Instr) (s t : State) : Prop where
  own : t.par = s.par ∧ t.port = s.port ∧ t.draws = s.draws ∧ t.ctl.CTRL = s.ctl.CTRL ∧ t.ctl.PHOLD = s.ctl.PHOLD
  inputs : t.inputs = s.inputs
  key : i ≠ .keyset → t.key = s.key
  block : i ≠ .bdec → t.cr.CR_C = s.cr.CR_C ∧ t.bd = s.bd
  roots : i ≠ .bdec → i ≠ .crtsqrt → t.cr = s.cr
  ms : i ≠ .modsqr → i ≠ .modmul → i ≠ .modexp → t.ms = s.ms
  xg : (∀ k, i ≠ .xgcd k) → t.xg = s.xg
  be : i ≠ .benc → t.be = s.be
  primes : (∀ k, i ≠ .sieve k) → t.sv = s.sv ∧ t.PL = s.PL ∧ t.SV = s.SV

section
variable {s t u : State} {i : Instr}

/-- A state that shares every register but the latch is framed by any command: so it is after a rejection and a fault. -/
theorem Frame.of_sameBesideCtl (h : s.SameBesideCtl t) (hport : t.port = s.port) (hdraws : t.draws = s.draws)
    (hctrl : t.ctl.CTRL = s.ctl.CTRL) (hphold : t.ctl.PHOLD = s.ctl.PHOLD) : Frame i s t := by
  obtain ⟨hpar, hms, hxg, hkey, hcr, hbe, hbd, hsv, hPL, hSV⟩ := h
  constructor <;> simp [State.inputs, *]

theorem sameBesideCtl_reject (s : State) : s.SameBesideCtl (reject s) :=
  ⟨rfl, rfl, rfl, rfl, rfl, rfl, rfl, rfl, rfl, rfl⟩

theorem sameBesideCtl_faultEntry (c : FaultCode) (w : Word) (s : State) : s.SameBesideCtl (faultEntry c w s) :=
  ⟨rfl, rfl, rfl, rfl, rfl, rfl, rfl, rfl, rfl, rfl⟩

/-- The answer is in no frame. -/
theorem Frame.finish (h : Frame i s u) : Frame i s (finish u) := by
  obtain ⟨own, inputs, key, block, roots, ms, xg, be, primes⟩ := h
  exact ⟨own, inputs, key, block, roots, ms, xg, be, primes⟩

/-- What each rule writes is in its command's destinations (R215). -/
theorem ruleOf_frame (h : ruleOf i s = .ok u) : Frame i s u := by
  cases i with
  | sieve k =>
    obtain ⟨-, -, rfl⟩ := sieveRule_ok h
    constructor <;> simp +contextual [State.inputs]
  | xgcd k =>
    obtain ⟨-, rfl⟩ := xgcdRule_ok h
    constructor <;> simp +contextual [State.inputs]
  | keyset =>
    obtain ⟨-, -, rfl⟩ := keysetRule_ok h
    constructor <;> simp +contextual [State.inputs]
  | modsqr | modmul | modexp =>
    obtain ⟨-, rfl⟩ := modRule_ok h
    constructor <;> simp +contextual [State.inputs]
  | crtsqrt =>
    obtain ⟨-, -, rfl⟩ := crtsqrtRule_ok h
    constructor <;> simp +contextual [State.inputs, State.withCandidates]
  | benc =>
    obtain ⟨-, rfl⟩ := bencRule_ok h
    constructor <;> simp +contextual [State.inputs]
  | bdec =>
    obtain ⟨-, -, -, rfl⟩ := bdecRule_ok h
    constructor <;> simp +contextual [State.inputs, State.withCandidates]

theorem exec_frame (h : exec i s = .next t) : Frame i s t := by
  rcases exec_cases h with ⟨-, rfl⟩ | ⟨-, c, -, rfl⟩ | ⟨-, u, hu, rfl⟩
  · exact .of_sameBesideCtl (sameBesideCtl_reject s) rfl rfl rfl rfl
  · exact .of_sameBesideCtl (sameBesideCtl_faultEntry c _ s) rfl rfl rfl rfl
  · exact (ruleOf_frame hu).finish

/-- No rule writes a control register: a command that completes leaves the latch clear (R190). -/
theorem ruleOf_ctl (h : ruleOf i s = .ok u) : u.ctl = s.ctl := by
  cases i with
  | sieve k => obtain ⟨-, -, rfl⟩ := sieveRule_ok h; rfl
  | xgcd k => obtain ⟨-, rfl⟩ := xgcdRule_ok h; rfl
  | keyset => obtain ⟨-, -, rfl⟩ := keysetRule_ok h; rfl
  | modsqr | modmul | modexp => obtain ⟨-, rfl⟩ := modRule_ok h; rfl
  | crtsqrt => obtain ⟨-, -, rfl⟩ := crtsqrtRule_ok h; rfl
  | benc => obtain ⟨-, rfl⟩ := bencRule_ok h; rfl
  | bdec => obtain ⟨-, -, -, rfl⟩ := bdecRule_ok h; rfl

theorem ruleOf_not_faulted (hf : ¬ s.faulted) (h : ruleOf i s = .ok u) : ¬ u.faulted := by
  rwa [State.faulted, ruleOf_ctl h]

end

/-- Settles O22, by the frame of each rule. -/
theorem commandFrames : Obligations.CommandFrames := by
  unfold Obligations.CommandFrames
  intro i s t h
  obtain ⟨own, inputs, key, block, roots, ms, xg, be, primes⟩ := exec_frame h
  exact ⟨own, regValue_eq_of_inputs inputs, key, block, roots, ms, xg, be, primes⟩

/-! ### The largest block -/

theorem REncode_byte_le (b : Byte) : REncode b.toNat ≤ 65535 := REncode_le_of_byte (Nat.le_of_lt_succ b.isLt)

/-- The square of the largest encoding (R152). -/
theorem REncode_sq_le (b : Byte) : REncode b.toNat * REncode b.toNat ≤ 4294836225 :=
  Nat.mul_le_mul (REncode_byte_le b) (REncode_byte_le b)

/-- Every ciphertext value fits a block (R152). -/
theorem REncode_sq_mod_lt (b : Byte) (n : Nat) : REncode b.toNat * REncode b.toNat % n < 2 ^ 32 :=
  ((Nat.mod_le _ n).trans (REncode_sq_le b)).trans_lt (by norm_num)

/-- No rule raises `ILLEGAL_CMD`, which is the decoder's (R182), and none `BLOCK_OVERFLOW`: the test of `BENC` never holds. -/
theorem ruleOf_error_ne {i : Instr} {s : State} {c : FaultCode} (h : ruleOf i s = .error c) :
    c ≠ .ILLEGAL_CMD ∧ c ≠ .BLOCK_OVERFLOW := by
  cases i with
  | sieve k => rcases sieveRule_error h with ⟨rfl, -⟩ | ⟨rfl, -⟩ <;> simp
  | xgcd k => obtain ⟨rfl, -⟩ := xgcdRule_error h; simp
  | keyset => rcases keysetRule_error h with ⟨rfl, -⟩ | ⟨rfl, -⟩ <;> simp
  | modsqr | modmul | modexp => obtain ⟨rfl, -⟩ := modRule_error h; simp
  | crtsqrt => rcases crtsqrtRule_error h with ⟨rfl, -⟩ | ⟨rfl, -⟩ <;> simp
  | benc =>
    rcases bencRule_error h with ⟨rfl, -⟩ | ⟨-, -, hover⟩
    · simp
    · exact absurd (REncode_sq_mod_lt s.be.BE_BYTE s.be.BE_N) (Nat.not_lt.mpr hover)
  | bdec => rcases bdecRule_error h with ⟨rfl, -⟩ | ⟨rfl, -⟩ | ⟨rfl, -⟩ <;> simp

/-- Settles O46: the bounds of the square, and a fault answered is the fault of the rule. -/
theorem blockOverflowUnreachable : Obligations.BlockOverflowUnreachable := by
  unfold Obligations.BlockOverflowUnreachable
  refine ⟨fun b n _ => ⟨REncode_byte_le b, REncode_sq_le b, REncode_sq_mod_lt b n⟩, fun i s t h ha => ?_⟩
  obtain ⟨-, hne⟩ := ruleOf_error_ne (ruleOf_error_of_exec h ha)
  exact hne rfl

/-! ### A command issued again -/

theorem setPrimes_finish_setPrimes (s : State) (primes : List Nat) (cells : List Bool) :
    (finish (s.setPrimes primes cells)).setPrimes primes cells = finish (s.setPrimes primes cells) := rfl

section
variable {s t : State}

/-- The roots and the candidates depend on the key alone. -/
theorem State.candidates_congr (h : s.key = t.key) :
    s.rootR = t.rootR ∧ s.rootS = t.rootS ∧ s.candidates = t.candidates := by
  have hR : s.rootR = t.rootR := by funext c; simp only [State.rootR, h]
  have hS : s.rootS = t.rootS := by funext c; simp only [State.rootS, h]
  exact ⟨hR, hS, by funext c; simp only [State.candidates, h, hR, hS]⟩

/-- The state that `BDEC` leaves where it completes (R160). -/
def State.decrypted (s : State) : State :=
  ((s.withCandidates s.bd.BD_BLK.toNat).setCrC s.bd.BD_BLK.toNat).setByte
    ((select4 (s.candidates s.bd.BD_BLK.toNat)).byte s.ctl.PHOLD) (select4 (s.candidates s.bd.BD_BLK.toNat)).stat

theorem decrypted_finish_decrypted (s : State) : (finish s.decrypted).decrypted = finish s.decrypted := by
  obtain ⟨hR, hS, hcand⟩ := State.candidates_congr (show (finish s.decrypted).key = s.key from rfl)
  rw [State.decrypted]
  simp only [State.withCandidates, hR, hS, hcand]
  rfl

end

/-- A rule reads none of its destinations (but `BDEC`'s `CR_C`, which it writes from the block first), so on the state that
its command left it writes what is there already. -/
theorem ruleOf_finish {i : Instr} {s u : State} (h : ruleOf i s = .ok u) : ruleOf i (finish u) = .ok (finish u) := by
  cases i with
  | sieve k =>
    obtain ⟨hmax, hk, rfl⟩ := sieveRule_ok h
    rw [ruleOf, sieveRule_done (s := finish (s.setPrimes _ _)) hmax hk]
    simp only [finish_sv, State.setPrimes_sv, setPrimes_finish_setPrimes]
  | xgcd k =>
    obtain ⟨hk, rfl⟩ := xgcdRule_ok h
    exact xgcdRule_done (s := finish (s.setXg _ _ _)) hk
  | keyset =>
    obtain ⟨hc, hg, rfl⟩ := keysetRule_ok h
    exact keysetRule_done (s := finish (s.setBezout _ _)) hc hg
  | modsqr | modmul | modexp =>
    obtain ⟨hm, rfl⟩ := modRule_ok h
    exact modRule_done (s := finish (s.setMsR _)) hm
  | crtsqrt =>
    obtain ⟨hc, hw, rfl⟩ := crtsqrtRule_ok h
    exact crtsqrtRule_done (s := finish (s.withCandidates _)) hc hw
  | benc =>
    obtain ⟨hn, rfl⟩ := bencRule_ok h
    exact bencRule_done (s := finish (s.setBlock _ _)) hn (REncode_sq_mod_lt s.be.BE_BYTE s.be.BE_N)
  | bdec =>
    obtain ⟨hc, hw, hs, rfl⟩ := bdecRule_ok h
    exact (bdecRule_done (s := finish s.decrypted) hc hw hs).trans (congrArg Except.ok (decrypted_finish_decrypted s))

/-- Settles O21: the command runs again, on a core that is not FAULTED, and its rule gives the state it is in. -/
theorem doneIsIdempotent : Obligations.DoneIsIdempotent := by
  unfold Obligations.DoneIsIdempotent
  intro i s t h ha
  obtain ⟨hf, u, hu, rfl⟩ := ruleOf_ok_of_exec_done h ha
  have hf' : ¬ u.faulted := ruleOf_not_faulted hf hu
  exact exec_done (s := finish u) (u := finish u) hf' (ruleOf_finish hu)

end Sys2Proof.Machine
end

