-- ==== Sys2Proof/Proofs/Ranges.lean ====
section
/-! PROOFS. The ranges of the registers (R9), and the free values of `RESET` in them (R47, R57, R77). -/

namespace Sys2Proof.Machine

/-! ### Values in range -/

theorem inRange_natCast {n v : Nat} (h : v < 2 ^ n) : InRange false n (v : Int) := by
  simp only [InRange, Bool.false_eq_true, if_false]
  omega

/-- A register that is held as a word is in range by its type. -/
theorem inRange_toNat {n : Nat} (b : BitVec n) : InRange false n (b.toNat : Int) := inRange_natCast b.isLt

/-- The range of a signed register, of W+1 bits (R9). -/
theorem inRange_signed_iff {W : Nat} {x : Int} :
    InRange true (W + 1) x ↔ -(2 ^ W : Nat) ≤ x ∧ x < (2 ^ W : Nat) := by
  simp [InRange]

theorem inRange_signedOf {W v : Nat} (h : v < 2 ^ (W + 1)) : InRange true (W + 1) (signedOf (W + 1) v) := by
  rw [inRange_signed_iff, signedOf, Nat.add_sub_cancel]
  rw [pow_succ] at h ⊢
  split <;> constructor <;> omega

theorem inRange_of_natAbs_le {W : Nat} {x : Int} (h : x.natAbs ≤ 2 ^ W - 1) : InRange true (W + 1) x := by
  have hpos := Nat.two_pow_pos W
  rw [inRange_signed_iff]
  omega

/-! ### `RESET` -/

theorem State.freeUnsigned_lt (s : State) (r : RegName) : s.freeUnsigned r < 2 ^ r.width s.par :=
  Nat.mod_lt _ (Nat.two_pow_pos _)

/-- Every register is in range after `RESET`: a free value is cut to the register's width (R47). -/
theorem doReset_fits (s : State) : (doReset s).Fits := by
  intro r
  cases r with
  | XG_X | XG_Y | K_A | K_B => exact inRange_signedOf (s.freeUnsigned_lt _)
  | BE_BYTE | BE_M | BE_BLK | BD_BLK | BD_BYTE | BD_STAT | CTRL | PHOLD | STATUS | FCODE | FCMD => exact inRange_toNat _
  | PCOUNT => exact inRange_natCast (v := 0) (Nat.two_pow_pos _)
  | _ => exact inRange_natCast (s.freeUnsigned_lt _)

theorem doReset_not_faulted (s : State) : ¬ (doReset s).faulted := by
  show ¬ (0#1 = 1#1)
  decide

/-- Settles O12: the step is `doReset`, whose free values are in range. -/
theorem resetTransaction : Obligations.ResetTransaction := by
  unfold Obligations.ResetTransaction
  intro s rest hp
  exact ⟨_, step_performs hp rfl, rfl, rfl, rfl, doReset_not_faulted _, rfl, rfl, rfl, rfl, rfl, doReset_fits _⟩

/-- Settles O13, by the definition of the state after reset. -/
theorem resetStateValues : Obligations.ResetStateValues := by
  unfold Obligations.ResetStateValues
  exact fun p => ⟨rfl, rfl, rfl, rfl, rfl⟩

end Sys2Proof.Machine
end

