-- ==== Sys2Proof/Proofs/HostPort.lean ====
section
/-! PROOFS. The host port (R60): what a step does with each transaction, what the port refuses (R61), and the FAULTED core
(R191). -/

namespace Sys2Proof.Machine

/-! ### What a transaction may change beside the core -/

section
variable {s t u : State}

theorem State.SameCore.refl (s : State) : s.SameCore s := ⟨rfl, rfl, rfl, rfl, rfl, rfl, rfl, rfl, rfl, rfl, rfl⟩

theorem State.SameCore.trans (h : s.SameCore t) (h' : t.SameCore u) : s.SameCore u :=
  ⟨h'.par.trans h.par, h'.ms.trans h.ms, h'.xg.trans h.xg, h'.key.trans h.key, h'.cr.trans h.cr, h'.be.trans h.be,
    h'.bd.trans h.bd, h'.sv.trans h.sv, h'.ctl.trans h.ctl, h'.PL.trans h.PL, h'.SV.trans h.SV⟩

theorem sameCore_answering (s : State) (a : Answer) : s.SameCore (s.answering a) :=
  ⟨rfl, rfl, rfl, rfl, rfl, rfl, rfl, rfl, rfl, rfl, rfl⟩

theorem sameCore_withPort (s : State) (p : List Transaction) : s.SameCore (s.withPort p) :=
  ⟨rfl, rfl, rfl, rfl, rfl, rfl, rfl, rfl, rfl, rfl, rfl⟩

end

/-! ### Reads (R62) -/

section
variable {s : State}

theorem doRd_index (r : RegName) (s : State) : doRd r.index s = s.answering (.value (s.readReg r)) := by
  simp [doRd]

theorem doRd_unmapped {i : RegIndex} (h : ∀ r : RegName, r.index ≠ i) : doRd i s = s.answering (.value 0) := by
  simp [doRd, regAt_eq_none h]

theorem doRd_frame (i : RegIndex) (s : State) : s.SameCore (doRd i s) ∧ (doRd i s).port = s.port := by
  unfold doRd
  split <;> exact ⟨sameCore_answering s _, rfl⟩

theorem step_rd {r : RegName} {rest : List Transaction} (hp : s.port = .rd r.index :: rest) :
    step s = .next ((s.withPort rest).answering (.value ((s.withPort rest).readReg r))) := by
  rw [step_performs hp rfl, perform, doRd_index]

theorem State.readReg_withPort (p : List Transaction) (r : RegName) : (s.withPort p).readReg r = s.readReg r := by
  rw [State.readReg, State.readReg, State.regValue_withPort, State.withPort_par]

end

/-- Settles O9: the answer is the pattern of the register, and an unmapped index reads 0. -/
theorem readTransaction : Obligations.ReadTransaction := by
  unfold Obligations.ReadTransaction
  refine ⟨fun s r rest hp => ?_, fun s i rest hp hi => ?_⟩
  · rw [step_rd hp, State.readReg_withPort]
    rfl
  · rw [step_performs hp rfl, perform, doRd_unmapped hi]
    rfl

/-- An `RW` register reads back the pattern written, whatever its sign (R61, R62). -/
theorem State.readReg_writeReg_self (s : State) {r : RegName} {v : Nat} (hw : r.writable = true)
    (hv : v < 2 ^ r.width s.par) : (s.writeReg r v).readReg r = v := by
  obtain ⟨hpar, -⟩ := s.writeReg_rest r v
  rw [State.readReg, hpar, s.writeReg_regValue_self hw hv]
  split
  · exact bitPattern_signedOf hv
  · exact bitPattern_natCast hv

theorem doWr_readReg_self {s : State} {r : RegName} {v : Nat} (hf : ¬ s.faulted) (hw : r.writable = true)
    (hv : v < 2 ^ r.width s.par) : (doWr r.index v s).readReg r = v := by
  rw [doWr_index r v hf, State.readReg, State.regValue_answering]
  exact s.readReg_writeReg_self hw hv

/-- Settles O10: the written register's pattern is what was written, and no step comes between. -/
theorem readAfterWrite : Obligations.ReadAfterWrite := by
  unfold Obligations.ReadAfterWrite
  intro s r v rest hf hw hv hp
  obtain ⟨-, hport, -⟩ := doWr_rest (s.withPort (.rd r.index :: rest)) r v
  refine ⟨_, _, step_wr hp hv, step_rd hport, ?_⟩
  rw [State.answering_answer, State.readReg_withPort, doWr_readReg_self (s := s.withPort (.rd r.index :: rest)) hf hw hv]

/-! ### Commands -/

theorem doIssue_encode (i : Instr) (s : State) : doIssue (encode i) s = exec i s := by
  by_cases hf : s.faulted
  · rw [exec_eq, complete_faulted hf, doIssue, if_pos hf]
  · rw [doIssue, if_neg hf, decode_eq_ok_iff.mpr rfl]

/-- Settles O5: the word that decodes to a command is its own, and `withFetchWord` presents it first. -/
theorem stepRunsDecodedCommand : Obligations.StepRunsDecodedCommand := by
  unfold Obligations.StepRunsDecodedCommand
  refine ⟨fun s w i rest hp hd => ?_, fun s nbits w i hd => ?_⟩
  · rw [decode_eq_ok_iff.mp hd] at hp
    rw [step_performs hp rfl, perform, doIssue_encode]
    rfl
  · rw [step_performs (s := s.withFetchWord nbits w) rfl rfl, perform, decode_eq_ok_iff.mp hd, doIssue_encode]
    rfl

/-- Settles O6, by the definition of the step. -/
theorem idleCoreHoldsState : Obligations.IdleCoreHoldsState := by
  unfold Obligations.IdleCoreHoldsState
  exact fun s h => serve_nil h

/-! ### Every transaction is answered -/

section
variable {s t u : State} {w : Word}

/-- A `WR` of any index, mapped or not, leaves the port and the parameters. -/
theorem doWr_port_par (i : RegIndex) (v : Nat) (s : State) : (doWr i v s).port = s.port ∧ (doWr i v s).par = s.par := by
  by_cases hi : ∃ r : RegName, r.index = i
  · obtain ⟨r, rfl⟩ := hi
    obtain ⟨-, hport, hpar, -⟩ := doWr_rest s r v
    exact ⟨hport, hpar⟩
  · rw [doWr_unmapped v (not_exists.mp hi)]
    exact ⟨rfl, rfl⟩

/-- How an `ISSUE` ends (R180): `DONE` on a core that stays clear, a fault with the latch alone changed, or `REJECTED`. -/
theorem doIssue_ends (w : Word) (s : State) :
    ∃ u, doIssue w s = .next u ∧ u.port = s.port ∧ u.par = s.par ∧
      ((¬ s.faulted ∧ u.answer = .completion .done ∧ ¬ u.faulted) ∨
        (∃ c, ¬ s.faulted ∧ u = faultEntry c w s) ∨ (s.faulted ∧ u = reject s)) := by
  rcases doIssue_cases (w := w) (s := s) with ⟨hf, h⟩ | ⟨hf, -, h⟩ | ⟨hf, i, hd, h⟩
  · exact ⟨_, h, rfl, rfl, .inr (.inr ⟨hf, rfl⟩)⟩
  · exact ⟨_, h, rfl, rfl, .inr (.inl ⟨_, hf, rfl⟩)⟩
  · obtain rfl := decode_eq_ok_iff.mp hd
    obtain ⟨u, hu⟩ := exec_next i s
    obtain ⟨hpar, hport, -⟩ := (exec_frame hu).own
    refine ⟨u, h.trans hu, hport, hpar, ?_⟩
    rcases exec_cases hu with ⟨hr, rfl⟩ | ⟨-, c, -, rfl⟩ | ⟨-, x, hx, rfl⟩
    · exact .inr (.inr ⟨hr, rfl⟩)
    · exact .inr (.inl ⟨c, hf, rfl⟩)
    · exact .inl ⟨hf, rfl, (ruleOf_not_faulted hf hx : ¬ x.faulted)⟩

/-- Every transaction ends in a next state, with the rest of the port and the parameters as they were. -/
theorem perform_next (t : Transaction) (s : State) :
    ∃ u, perform t s = .next u ∧ u.port = s.port ∧ u.par = s.par := by
  cases t with
  | wr i v => exact ⟨_, rfl, doWr_port_par i v s⟩
  | rd i => exact ⟨_, rfl, (doRd_frame i s).2, (doRd_frame i s).1.par⟩
  | rdpl k => exact ⟨_, rfl, (doRdpl_frame k s).2, (doRdpl_frame k s).1.par⟩
  | issue w =>
    obtain ⟨u, hu, hport, hpar, -⟩ := doIssue_ends w s
    exact ⟨u, hu, hport, hpar⟩
  | reset => exact ⟨_, rfl, rfl, rfl⟩

end

/-- Settles O7: every transaction has a next state, and an `ISSUE` one of three. -/
theorem everyTransactionAnswers : Obligations.EveryTransactionAnswers := by
  unfold Obligations.EveryTransactionAnswers
  intro s t rest hp he
  obtain ⟨u, hu, hport, hpar⟩ := perform_next t (s.withPort rest)
  refine ⟨u, (step_performs hp he).trans hu, hport, hpar, ?_⟩
  rintro w rfl
  obtain ⟨u', hu', -, -, hends⟩ := doIssue_ends w (s.withPort rest)
  obtain rfl : u = u' := Host.Outcome.next.inj (hu.symm.trans hu')
  exact hends

/-! ### What the port refuses (R61) -/

section
variable {s : State}

/-- A transaction that the port cannot express is refused. -/
theorem step_refuses {t : Transaction} {rest : List Transaction} (hp : s.port = t :: rest)
    (he : t.expressible s.par = false) : step s = .refused .inexpressible := by
  rw [step_cons hp, transact, if_neg]
  simp [he]

/-- Nothing else is: a step is refused only on a transaction that the port cannot express. -/
theorem port_of_step_refused {x : Refusal} (h : step s = .refused x) :
    ∃ t rest, s.port = t :: rest ∧ t.expressible s.par = false := by
  cases hp : s.port with
  | nil =>
    rw [show step s = .next s from serve_nil hp] at h
    cases h
  | cons t rest =>
    refine ⟨t, rest, rfl, ?_⟩
    by_contra he
    obtain ⟨u, hu, -⟩ := perform_next t (s.withPort rest)
    rw [step_performs hp (by simpa using he), hu] at h
    cases h

/-- What the port cannot express: a `WR` value wider than its register, and a `RDPL` index of 2^W or more (R60, R61). -/
theorem not_expressible_iff {p : Config.Params} {t : Transaction} :
    t.expressible p = false ↔
      (∃ (r : RegName) (v : Nat), t = .wr r.index v ∧ 2 ^ r.width p ≤ v) ∨ ∃ k, t = .rdpl k ∧ 2 ^ p.W ≤ k := by
  constructor
  · intro h
    cases t with
    | wr i v =>
      simp only [Transaction.expressible] at h
      split at h
      · rename_i r hr
        exact .inl ⟨r, v, by rw [regAt_eq_some hr], by simpa using h⟩
      · cases h
    | rdpl k => exact .inr ⟨k, rfl, by simpa [Transaction.expressible] using h⟩
    | rd i | issue w | reset => cases h
  · rintro (⟨r, v, rfl, hv⟩ | ⟨k, rfl, hk⟩) <;> simpa [Transaction.expressible]

end

/-- Settles O14, by which transactions the port cannot express. -/
theorem inexpressibleRefused : Obligations.InexpressibleRefused := by
  unfold Obligations.InexpressibleRefused
  refine ⟨fun s r v rest hp hv => ?_, fun s k rest hp hk => ?_, fun s x h => ?_⟩
  · exact step_refuses hp (not_expressible_iff.mpr (.inl ⟨r, v, rfl, hv⟩))
  · exact step_refuses hp (not_expressible_iff.mpr (.inr ⟨k, rfl, hk⟩))
  · obtain ⟨t, rest, hp, he⟩ := port_of_step_refused h
    rcases not_expressible_iff.mp he with ⟨r, v, rfl, hv⟩ | ⟨k, rfl, hk⟩
    · exact ⟨rest, .inl ⟨r, v, hp, hv⟩⟩
    · exact ⟨rest, .inr ⟨k, hp, hk⟩⟩

/-! ### The FAULTED core (R191) -/

section
variable {s t : State}

theorem doIssue_faulted (w : Word) (hf : s.faulted) : doIssue w s = .next (reject s) := by
  rw [doIssue, if_pos hf]

/-- While FAULTED a transaction other than `RESET` changes nothing of the core. -/
theorem perform_faulted {x : Transaction} (hf : s.faulted) (hx : x ≠ .reset) (h : perform x s = .next t) :
    s.SameCore t := by
  cases x with
  | wr i v =>
    obtain rfl : s.answering .nothing = t := by simpa [perform, doWr_faulted i v hf] using h
    exact sameCore_answering s _
  | rd i =>
    obtain rfl : doRd i s = t := by simpa [perform] using h
    exact (doRd_frame i s).1
  | rdpl k =>
    obtain rfl : doRdpl k s = t := by simpa [perform] using h
    exact (doRdpl_frame k s).1
  | issue w =>
    obtain rfl : reject s = t := by simpa [perform, doIssue_faulted w hf] using h
    exact sameCore_answering s _
  | reset => exact absurd rfl hx

/-- One step of a FAULTED core with no `RESET` presented. -/
theorem step_faulted (hf : s.faulted) (hr : Transaction.reset ∉ s.port) (h : step s = .next t) :
    s.SameCore t ∧ Transaction.reset ∉ t.port := by
  rcases step_cases h with ⟨-, rfl⟩ | ⟨x, rest, hp, -, hx⟩
  · exact ⟨State.SameCore.refl t, hr⟩
  · rw [hp, List.mem_cons, not_or] at hr
    obtain ⟨hne, hrest⟩ := hr
    obtain ⟨u, hu, hport, -⟩ := perform_next x (s.withPort rest)
    obtain rfl : t = u := Host.Outcome.next.inj (hx.symm.trans hu)
    exact ⟨(perform_faulted (s := s.withPort rest) hf (Ne.symm hne) hx).of_withPort, hport ▸ hrest⟩

/-- A run of `n + 1` steps is a step and a run of `n`. -/
theorem run_succ {n : Nat} (h : Host.Core.run core (n + 1) s = .next t) :
    ∃ u, step s = .next u ∧ Host.Core.run core n u = .next t := by
  cases hs : step s with
  | next u =>
    have hs' : core.step s = .next u := hs
    exact ⟨u, rfl, by simpa only [Host.Core.run, hs'] using h⟩
  | fault r => cases r
  | refused r =>
    have hs' : core.step s = .refused r := hs
    simp only [Host.Core.run, hs'] at h
    cases h

end

/-- Settles O18, by induction on the number of steps: each keeps the core, hence the FAULTED state. -/
theorem faultedUntilReset : Obligations.FaultedUntilReset := by
  unfold Obligations.FaultedUntilReset
  intro n
  induction n with
  | zero =>
    intro s t _ _ h
    obtain rfl := Host.Outcome.next.inj h
    exact State.SameCore.refl s
  | succ n ih =>
    intro s t hf hr h
    obtain ⟨u, hu, hrun⟩ := run_succ h
    obtain ⟨hsame, hr'⟩ := step_faulted hf hr hu
    have hf' : u.faulted := by rwa [State.faulted, hsame.ctl]
    exact hsame.trans (ih u t hf' hr' hrun)

/-- Settles O17: each transaction on a FAULTED core, by the operation that performs it. -/
theorem faultedTransactions : Obligations.FaultedTransactions := by
  unfold Obligations.FaultedTransactions
  intro s rest hf
  refine ⟨fun w hp => ?_, fun i v hp he => ?_, fun r hp => ?_, fun k v hp hk hlt hv => ?_, fun hp => ?_⟩
  · exact (step_performs hp rfl).trans (doIssue_faulted (s := s.withPort rest) w hf)
  · rw [step_performs hp he, perform, doWr_faulted (s := s.withPort rest) i v hf]
    rfl
  · rw [step_rd hp, State.readReg_withPort]
    rfl
  · rw [step_rdpl hp hk, doRdpl_below (s := s.withPort rest) hlt hv]
    rfl
  · exact ⟨_, step_performs hp rfl, doReset_not_faulted _⟩

end Sys2Proof.Machine
end

