-- ==== Sys2Proof/Proofs/Sieve.lean ====
section
/-! PROOFS. The sieve (R101), the list it gives (R102) with its bound (R104), and the command `SIEVE` (R100, R183, R189). -/

namespace Sys2Proof.Machine

/-! ### Primality -/

/-- The primality of R101 is Mathlib's. -/
theorem isPrime_iff {n : Nat} : IsPrime n ↔ n.Prime := by
  rw [Nat.prime_def_lt, IsPrime]
  refine and_congr_right fun hn => forall_congr' fun d => ⟨fun h hd hdvd => ?_, fun h h1 hd hdvd => ?_⟩
  · by_contra hne
    have h0 : d ≠ 0 := fun h0 => by
      rw [h0, zero_dvd_iff] at hdvd
      omega
    exact h (by omega) hd hdvd
  · exact absurd (h hd hdvd) h1.ne'

/-! ### The cells -/

/-- No divisor `d` below `i` with `d * d ≤ k`: what a cell that is 1 says when the rounds before `i` are done. -/
def Sifted (i k : Nat) : Prop := 2 ≤ k ∧ ∀ d, 2 ≤ d → d < i → d * d ≤ k → ¬ d ∣ k

/-- The cells as the rounds before `i` leave them (R101). -/
def SiftedCells (mx i : Nat) (cells : List Bool) : Prop :=
  cells.length = mx + 1 ∧ ∀ k b, cells[k]? = some b → (b = true ↔ Sifted i k)

theorem sifted_two (k : Nat) : Sifted 2 k ↔ 2 ≤ k :=
  ⟨fun h => h.1, fun h => ⟨h, fun _ h2 hlt => absurd hlt (Nat.not_lt.mpr h2)⟩⟩

theorem sifted_succ {i : Nat} (hi : 2 ≤ i) (k : Nat) : Sifted (i + 1) k ↔ Sifted i k ∧ ¬ (i * i ≤ k ∧ i ∣ k) := by
  constructor
  · rintro ⟨hk, h⟩
    exact ⟨⟨hk, fun d h2 hd => h d h2 (by omega)⟩, fun ⟨hle, hdvd⟩ => h i hi (Nat.lt_succ_self i) hle hdvd⟩
  · rintro ⟨⟨hk, h⟩, hnot⟩
    refine ⟨hk, fun d h2 hd hle hdvd => ?_⟩
    rcases Nat.lt_succ_iff_lt_or_eq.mp hd with hlt | rfl
    · exact h d h2 hlt hle hdvd
    · exact hnot ⟨hle, hdvd⟩

/-- A number struck out in an earlier round strikes out nothing new: its own divisor has struck its multiples. -/
theorem sifted_succ_of_not_sifted {i : Nat} (hi : 2 ≤ i) (h : ¬ Sifted i i) (k : Nat) : Sifted (i + 1) k ↔ Sifted i k := by
  rw [sifted_succ hi]
  refine and_iff_left_of_imp fun hk hik => h ⟨hi, fun d h2 hd hle hdvd => ?_⟩
  have hik' : i ≤ k := (Nat.le_mul_self i).trans hik.1
  exact hk.2 d h2 hd (hle.trans hik') (hdvd.trans hik.2)

theorem sieveInit_cells (mx : Nat) : SiftedCells mx 2 (sieveInit mx) := by
  refine ⟨by simp [sieveInit], fun k b hb => ?_⟩
  rw [sifted_two]
  rcases k with _ | _ | k
  · simp [sieveInit] at hb
    simp [← hb]
  · simp [sieveInit, List.getElem?_set] at hb
    simp [← hb.2]
  · simp [sieveInit, List.getElem?_replicate] at hb
    simp [← hb.2]

/-- Striking the multiples of a number that no earlier round has struck out. -/
theorem SiftedCells.strike {mx i : Nat} {cells : List Bool} (hi : 2 ≤ i) (h : SiftedCells mx i cells) :
    SiftedCells mx (i + 1) (strike i 0 cells) := by
  obtain ⟨hlen, hcell⟩ := h
  refine ⟨by rw [strike_length, hlen], fun k b hb => ?_⟩
  rw [strike_getElem?, Option.map_eq_some_iff] at hb
  obtain ⟨a, ha, rfl⟩ := hb
  rw [sifted_succ hi, ← hcell k a ha, Nat.zero_add, Nat.dvd_iff_mod_eq_zero, Bool.and_eq_true, Bool.not_eq_true',
    ← Bool.not_eq_true, Bool.and_eq_true, decide_eq_true_eq, beq_iff_eq]

/-- One round of the loop. -/
theorem SiftedCells.round {mx i : Nat} {cells : List Bool} (hi : 2 ≤ i) (hmx : i * i ≤ mx) (h : SiftedCells mx i cells) :
    SiftedCells mx (i + 1) (if cells.getD i false then Machine.strike i 0 cells else cells) := by
  have hlt : i < cells.length := by
    rw [h.1]
    exact Nat.lt_succ_of_le ((Nat.le_mul_self i).trans hmx)
  have hat : cells[i]? = some (cells.getD i false) := by
    rw [List.getD_eq_getElem?_getD, List.getElem?_eq_getElem hlt, Option.getD_some]
  split
  · exact h.strike hi
  · rename_i hfalse
    have hnot : ¬ Sifted i i := fun hs => hfalse ((h.2 i _ hat).mpr hs)
    exact ⟨h.1, fun k b hb => (h.2 k b hb).trans (sifted_succ_of_not_sifted hi hnot k).symm⟩

/-- The rounds go on until the square of the next number is past `mx`; the fuel is enough for that. -/
theorem SiftedCells.loop {mx i fuel : Nat} {cells : List Bool} (hi : 2 ≤ i) (hfuel : mx < (i + fuel) * (i + fuel))
    (h : SiftedCells mx i cells) : ∃ j, mx < j * j ∧ SiftedCells mx j (sieveLoop mx fuel i cells) := by
  induction fuel generalizing i cells with
  | zero => exact ⟨i, hfuel, h⟩
  | succ fuel ih =>
    rw [sieveLoop]
    split
    · exact ih (by omega) (by rwa [Nat.add_right_comm, Nat.add_assoc]) (h.round hi ‹_›)
    · exact ⟨i, Nat.lt_of_not_le ‹_›, h⟩

/-- A number of which no divisor up to its square root is left is a prime. -/
theorem sifted_iff_isPrime {j k : Nat} (hk : k < j * j) : Sifted j k ↔ IsPrime k := by
  rw [isPrime_iff, Nat.prime_def_le_sqrt, Sifted]
  refine and_congr_right fun _ => forall_congr' fun d => forall_congr' fun _ => ?_
  rw [Nat.le_sqrt]
  exact ⟨fun h hle => h (Nat.mul_self_lt_mul_self_iff.mp (hle.trans_lt hk)) hle, fun h _ => h⟩

theorem sieve_siftedCells (mx : Nat) : ∃ j, mx < j * j ∧ SiftedCells mx j (sieve mx) :=
  (sieveInit_cells mx).loop le_rfl (by nlinarith)

@[simp] theorem sieve_length (mx : Nat) : (sieve mx).length = mx + 1 := by
  obtain ⟨j, -, hlen, -⟩ := sieve_siftedCells mx
  exact hlen

/-- The result of the sieve, its normative part (R101): a cell is 1 exactly for a prime. -/
theorem sieve_getElem? {mx i : Nat} {b : Bool} (h : (sieve mx)[i]? = some b) : b = true ↔ IsPrime i := by
  obtain ⟨j, hj, hlen, hcell⟩ := sieve_siftedCells mx
  have hi : i < mx + 1 := hlen ▸ (List.getElem?_eq_some_iff.mp h).1
  rw [hcell i b h, sifted_iff_isPrime (by omega)]

/-! ### The list -/

theorem mem_primes34 {mn mx i : Nat} : i ∈ primes34 mn mx ↔ Qualifies mn mx i := by
  rw [primes34, mem_collect, Qualifies, Nat.sub_zero]
  constructor
  · rintro ⟨-, hcell, hmn, hmod⟩
    have hi : i < (sieve mx).length := (List.getElem?_eq_some_iff.mp hcell).1
    rw [sieve_length] at hi
    exact ⟨hmn, Nat.le_of_lt_succ hi, (sieve_getElem? hcell).mp rfl, hmod⟩
  · rintro ⟨hmn, hmx, hprime, hmod⟩
    have hi : i < (sieve mx).length := by
      rw [sieve_length]
      omega
    have hcell : (sieve mx)[i]? = some (sieve mx)[i] := List.getElem?_eq_getElem hi
    have htrue : (sieve mx)[i] = true := (sieve_getElem? hcell).mpr hprime
    exact ⟨Nat.zero_le i, htrue ▸ hcell, hmn, hmod⟩

theorem primes34_pairwise (mn mx : Nat) : (primes34 mn mx).Pairwise (· < ·) := collect_pairwise mn _ 0

/-- There are n / 4 numbers below `n` that are 3 mod 4. -/
theorem length_filter_mod_four (n : Nat) : ((List.range n).filter (fun i => i % 4 == 3)).length = n / 4 := by
  induction n with
  | zero => rfl
  | succ n ih =>
    have hlast : ([n].filter (fun i => i % 4 == 3)).length = if n % 4 = 3 then 1 else 0 := by
      by_cases h : n % 4 = 3 <;> simp [h]
    rw [List.range_succ, List.filter_append, List.length_append, ih, hlast]
    split <;> omega

/-- The list is no longer than the numbers of its range that are 3 mod 4 (R104). -/
theorem length_primes34_le (mn mx : Nat) : (primes34 mn mx).length ≤ (mx + 1) / 4 := by
  rw [← length_filter_mod_four]
  have hnodup : (primes34 mn mx).Nodup := (primes34_pairwise mn mx).imp Nat.ne_of_lt
  refine (List.subperm_of_subset hnodup fun i hi => ?_).length_le
  obtain ⟨-, hmx, -, hmod⟩ := mem_primes34.mp hi
  exact List.mem_filter.mpr ⟨List.mem_range.mpr (by omega), by simp [hmod]⟩

/-- An ascending list has two entries exactly if two numbers, one below the other, are in it. -/
theorem two_le_length_iff {L : List Nat} (h : L.Pairwise (· < ·)) : 2 ≤ L.length ↔ ∃ i j, i < j ∧ i ∈ L ∧ j ∈ L := by
  match L, h with
  | [], _ => simp
  | [a], _ =>
    simp only [List.length_singleton, List.mem_singleton]
    constructor
    · omega
    · rintro ⟨i, j, hlt, rfl, rfl⟩
      omega
  | a :: b :: L, h =>
    obtain ⟨ha, -⟩ := List.pairwise_cons.mp h
    exact iff_of_true (by simp) ⟨a, b, ha b (by simp), by simp, by simp⟩

/-- The test of `SIEVE.K` (R183): fewer than two entries, or two qualifying primes. -/
theorem two_le_length_primes34_iff {mn mx : Nat} :
    2 ≤ (primes34 mn mx).length ↔ ∃ i j, i < j ∧ Qualifies mn mx i ∧ Qualifies mn mx j := by
  simp only [two_le_length_iff (primes34_pairwise mn mx), mem_primes34]

theorem primes34_eq_nil {mn mx : Nat} (h : mx < mn) : primes34 mn mx = [] := by
  refine List.eq_nil_iff_forall_not_mem.mpr fun i hi => ?_
  obtain ⟨hmn, hmx, -⟩ := mem_primes34.mp hi
  omega

/-- The admissible parameters, as arithmetic (R5, R6). -/
theorem Params.wf_iff {p : Config.Params} : p.wf = true ↔ 32 ≤ p.W ∧ 4 ≤ p.S ∧ p.S % 4 = 0 ∧ p.S ≤ 2 ^ p.W := by
  simp [Config.Params.wf, Config.Params.widthOk, Config.Params.sieveOk, Config.Params.multipleOk, Config.Params.addressOk,
    and_assoc]

/-- Settles O25: the list is a part of the numbers up to `mx` that are 3 mod 4, of which the depth holds all below S. -/
theorem primeListNeverOverflows : Obligations.PrimeListNeverOverflows := by
  unfold Obligations.PrimeListNeverOverflows
  refine fun mn mx => ⟨length_filter_mod_four _, length_primes34_le mn mx, fun p hp hmx => ⟨?_, rfl⟩⟩
  obtain ⟨-, hS, -⟩ := Params.wf_iff.mp hp
  exact Nat.div_le_div_right (by omega)

/-! ### `SIEVE` -/

section
variable {s : State} {k : Bool}

theorem exec_sieve_done (hf : ¬ s.faulted) (hmax : s.sv.SV_MAX < s.par.S)
    (hk : k = true → 2 ≤ (primes34 s.sv.SV_MIN s.sv.SV_MAX).length) :
    exec (.sieve k) s = .next (finish (s.setPrimes (primes34 s.sv.SV_MIN s.sv.SV_MAX) (sieve s.sv.SV_MAX))) :=
  exec_done hf (sieveRule_done hmax hk)

/-- The first test of both forms (R189). -/
theorem sieveRule_range (h : s.par.S ≤ s.sv.SV_MAX) : sieveRule k s = .error .SIEVE_RANGE := by
  simp only [sieveRule, if_pos h]

/-- The second test, of `SIEVE.K` (R183). -/
theorem sieveRule_pool (hmax : s.sv.SV_MAX < s.par.S) (h : (primes34 s.sv.SV_MIN s.sv.SV_MAX).length < 2) :
    sieveRule true s = .error .GEN_POOL := by
  simp only [sieveRule, if_neg (Nat.not_le.mpr hmax), h, and_self, if_true]

end

theorem encode_sieve_k : encode (.sieve true) = 0x00000101#32 := by decide

/-- Settles O23: the list and the cells are those of `primes34` and of the sieve. -/
theorem sieveResult : Obligations.SieveResult := by
  unfold Obligations.SieveResult
  intro s k hf hmax hk
  exact ⟨primes34 s.sv.SV_MIN s.sv.SV_MAX, sieve s.sv.SV_MAX, primes34_pairwise _ _, fun _ => mem_primes34,
    sieve_length _, fun _ _ => sieve_getElem?, Memory.read_load _,
    exec_sieve_done hf hmax fun h => two_le_length_primes34_iff.mpr (hk h)⟩

/-- Settles O24, by the two tests in their order, and by the result where neither fails. -/
theorem sieveFaults : Obligations.SieveFaults := by
  unfold Obligations.SieveFaults
  refine fun s hf => ⟨fun k hmax => exec_fault hf (sieveRule_range hmax), fun hmax hfew => ?_, fun hmax => ?_⟩
  · rw [← two_le_length_primes34_iff, Nat.not_le] at hfew
    rw [exec_fault (i := .sieve true) hf (sieveRule_pool hmax hfew), encode_sieve_k]
  · refine ⟨_, exec_sieve_done hf hmax (fun h => by cases h), rfl, fun hempty => ?_⟩
    rw [primes34_eq_nil hempty]
    exact ⟨rfl, rfl⟩

end Sys2Proof.Machine
end

