-- ==== Sys2Proof/Proofs/BezoutPairs.lean ====
section
/-! PROOFS. The contract of `xgcd` (R112), the size of its coefficients (R113), the command `KEYSET` (R115), and that any
Bezout pair gives the same CRT combination (R117). -/

namespace Sys2Proof.Machine

/-! ### The Bezout identity (R112) -/

/-- One round keeps the identity: a = (a / b)·b + a % b. -/
theorem xgcd_bezout (a b : Nat) : (a : Int) * (xgcd a b).x + (b : Int) * (xgcd a b).y = (xgcd a b).g := by
  induction b, a using Nat.gcd.induction with
  | H0 a => simp
  | H1 b a hb ih =>
    have hdiv : (b : Int) * (a / b : Nat) + (a % b : Nat) = a := by exact_mod_cast Nat.div_add_mod a b
    rw [xgcd_of_pos a hb, ← ih]
    linear_combination (-(xgcd b (a % b)).y) * hdiv

/-- Settles O27: the gcd and the identity, each by Euclid's induction. -/
theorem xgcdContract : Obligations.XgcdContract := by
  unfold Obligations.XgcdContract
  exact ⟨fun a b => ⟨xgcd_g a b, xgcd_bezout a b⟩, rfl⟩

/-! ### The size of the coefficients (R113) -/

/-- The quotient by the gcd of a division with remainder. -/
theorem div_gcd_eq (a b : Nat) : a / Nat.gcd a b = a / b * (b / Nat.gcd a b) + a % b / Nat.gcd a b := by
  have hb : Nat.gcd a b ∣ a / b * b := Dvd.dvd.mul_left (Nat.gcd_dvd_right a b) _
  rw [← Nat.mul_div_assoc _ (Nat.gcd_dvd_right a b), ← Nat.add_div_of_dvd_right hb, Nat.div_add_mod']

/-- The first coefficient is bounded by the second operand, and the second by the first, over the gcd; the 1 is for an
operand 0. -/
theorem xgcd_natAbs_le (a b : Nat) :
    (xgcd a b).x.natAbs ≤ max 1 (b / Nat.gcd a b) ∧ (xgcd a b).y.natAbs ≤ max 1 (a / Nat.gcd a b) := by
  induction b, a using Nat.gcd.induction with
  | H0 a => simp
  | H1 b a hb ih =>
    have hgcd : Nat.gcd b (a % b) = Nat.gcd a b := by rw [Nat.gcd_comm b, ← Nat.gcd_rec, Nat.gcd_comm]
    rw [hgcd] at ih
    obtain ⟨hx, hy⟩ := ih
    have hpos : 1 ≤ b / Nat.gcd a b := Nat.div_pos (Nat.gcd_le_right a hb) (Nat.gcd_pos_of_pos_right a hb)
    rw [max_eq_right hpos] at hy
    rw [xgcd_of_pos a hb]
    refine ⟨hy.trans (le_max_right _ _), ?_⟩
    rcases Nat.eq_zero_or_pos (a % b) with hr | hr
    · simp [hr]
    · have hgr : Nat.gcd a b ∣ a % b := (Nat.dvd_mod_iff (Nat.gcd_dvd_right a b)).mpr (Nat.gcd_dvd_left a b)
      have hrpos : 1 ≤ a % b / Nat.gcd a b := Nat.div_pos (Nat.le_of_dvd hr hgr) (Nat.gcd_pos_of_pos_right a hb)
      rw [max_eq_right hrpos] at hx
      refine le_trans ?_ (le_max_right _ _)
      calc ((xgcd b (a % b)).x - (a / b : Nat) * (xgcd b (a % b)).y).natAbs
          ≤ (xgcd b (a % b)).x.natAbs + a / b * (xgcd b (a % b)).y.natAbs := by
            have := Int.natAbs_sub_le (xgcd b (a % b)).x ((a / b : Nat) * (xgcd b (a % b)).y)
            rwa [Int.natAbs_mul, Int.natAbs_natCast] at this
        _ ≤ a % b / Nat.gcd a b + a / b * (b / Nat.gcd a b) := Nat.add_le_add hx (Nat.mul_le_mul_left _ hy)
        _ = a / Nat.gcd a b := by rw [div_gcd_eq a b, Nat.add_comm]

/-- Both coefficients always fit their signed registers. -/
theorem xgcd_natAbs_le_pow {W a b : Nat} (hW : 1 ≤ W) (ha : a < 2 ^ W) (hb : b < 2 ^ W) :
    (xgcd a b).x.natAbs ≤ 2 ^ W - 1 ∧ (xgcd a b).y.natAbs ≤ 2 ^ W - 1 := by
  obtain ⟨hx, hy⟩ := xgcd_natAbs_le a b
  have hone : 1 ≤ 2 ^ W - 1 := by
    have := Nat.pow_le_pow_right (n := 2) (by norm_num) hW
    omega
  have hfit : ∀ v, v < 2 ^ W → max 1 (v / Nat.gcd a b) ≤ 2 ^ W - 1 := fun v hv =>
    max_le hone ((Nat.div_le_self v _).trans (by omega))
  exact ⟨hx.trans (hfit b hb), hy.trans (hfit a ha)⟩

/-- Of two coprime numbers from 2 on, each coefficient of a Bezout pair that is bounded as R113 says is below the other
number, and the two have opposite signs. -/
theorem bezout_shape {p q : Nat} {x y : Int} (hp : 2 ≤ p) (hq : 2 ≤ q) (h : (p : Int) * x + q * y = 1)
    (hx : x.natAbs ≤ q) (hy : y.natAbs ≤ p) :
    x.natAbs < q ∧ y.natAbs < p ∧ ((x < 0 ∧ 0 ≤ y) ∨ (0 ≤ x ∧ y < 0)) := by
  have hndvd : ∀ n : Nat, 2 ≤ n → ¬ (n : Int) ∣ 1 := fun n hn hd => by
    have := Int.le_of_dvd one_pos hd
    omega
  have hxq : x.natAbs ≠ q := fun he => hndvd q hq <| h ▸
    dvd_add (Dvd.dvd.mul_left (Int.natCast_dvd.mpr he.symm.dvd) _) (dvd_mul_right _ _)
  have hyp : y.natAbs ≠ p := fun he => hndvd p hp <| h ▸
    dvd_add (dvd_mul_right _ _) (Dvd.dvd.mul_left (Int.natCast_dvd.mpr he.symm.dvd) _)
  refine ⟨lt_of_le_of_ne hx hxq, lt_of_le_of_ne hy hyp, ?_⟩
  rcases lt_or_ge x 0 with hx0 | hx0 <;> rcases lt_or_ge y 0 with hy0 | hy0
  · nlinarith
  · exact .inl ⟨hx0, hy0⟩
  · exact .inr ⟨hx0, hy0⟩
  · exfalso
    rcases hx0.eq_or_lt with rfl | hx1
    · exact hndvd q hq ⟨y, by linarith⟩
    · nlinarith

/-- `XGCD` and `KEYSET` raise no `WIDTH`: their results always fit. -/
theorem ruleOf_ne_width {i : Instr} {s : State} (hi : i = .keyset ∨ ∃ k, i = .xgcd k) : ruleOf i s ≠ .error .WIDTH := by
  intro h
  rcases hi with rfl | ⟨k, rfl⟩
  · simpa using keysetRule_error h
  · simpa using xgcdRule_error h

theorem gcd_eq_one_of_isPrime {p q : Nat} (hp : IsPrime p) (hq : IsPrime q) (hne : p ≠ q) : Nat.gcd p q = 1 :=
  (Nat.coprime_primes (isPrime_iff.mp hp) (isPrime_iff.mp hq)).mpr hne

/-- The coefficients of two distinct primes. -/
theorem xgcd_shape_of_isPrime {p q : Nat} (hp : IsPrime p) (hq : IsPrime q) (hne : p ≠ q) :
    (xgcd p q).x.natAbs < q ∧ (xgcd p q).y.natAbs < p ∧
      (((xgcd p q).x < 0 ∧ 0 ≤ (xgcd p q).y) ∨ (0 ≤ (xgcd p q).x ∧ (xgcd p q).y < 0)) := by
  have hgcd := gcd_eq_one_of_isPrime hp hq hne
  have hid := xgcd_bezout p q
  obtain ⟨hx, hy⟩ := xgcd_natAbs_le p q
  rw [xgcd_g, hgcd, Nat.cast_one] at hid
  rw [hgcd, Nat.div_one] at hx hy
  exact bezout_shape hp.1 hq.1 hid (hx.trans_eq (max_eq_right (by have := hq.1; omega)))
    (hy.trans_eq (max_eq_right (by have := hp.1; omega)))

/-- Settles O28: the bounds go through the recursion, and the identity gives the shape. -/
theorem xgcdBounds : Obligations.XgcdBounds := by
  unfold Obligations.XgcdBounds
  refine ⟨fun a b _ => ?_, ⟨rfl, rfl⟩, fun W a b => xgcd_natAbs_le_pow,
    fun s t i hi h ha => ruleOf_ne_width hi (ruleOf_error_of_exec h ha),
    fun p q hp hq hne _ _ => xgcd_shape_of_isPrime hp hq hne⟩
  rw [xgcd_g]
  exact xgcd_natAbs_le a b

/-! ### `KEYSET` (R115) -/

section
variable {s : State}

/-- Coefficients of two coprime numbers. -/
theorem xgcd_bezout_of_coprime {p q : Nat} (h : Nat.gcd p q = 1) : (xgcd p q).x * p + (xgcd p q).y * q = 1 := by
  have hid := xgcd_bezout p q
  rw [xgcd_g, h, Nat.cast_one] at hid
  linarith

theorem exec_keyset_done (hf : ¬ s.faulted) (hk : s.keyCongruent) (hg : Nat.gcd s.key.K_P s.key.K_Q = 1) :
    exec .keyset s = .next (finish (s.setBezout (xgcd s.key.K_P s.key.K_Q).x (xgcd s.key.K_P s.key.K_Q).y)) :=
  exec_done hf (keysetRule_done hk (by rwa [xgcd_g]))

theorem keysetRule_notCoprime (hk : s.keyCongruent) (hg : Nat.gcd s.key.K_P s.key.K_Q ≠ 1) :
    keysetRule s = .error .KEY_NOT_COPRIME := by
  rw [← xgcd_g] at hg
  simp only [keysetRule, if_neg (not_not.mpr hk), if_pos hg]

end

theorem encode_keyset : encode .keyset = 0x00000003#32 := by decide

/-- Settles O30, by the three ways in which `KEYSET` ends, in the order of its tests. -/
theorem keysetResult : Obligations.KeysetResult := by
  unfold Obligations.KeysetResult
  refine fun s hf => ⟨fun hp hq hg => ?_, fun hpq => ?_, fun hp hq hg => ?_⟩
  · have hpair : xgcd s.key.K_P s.key.K_Q = ⟨1, (xgcd s.key.K_P s.key.K_Q).x, (xgcd s.key.K_P s.key.K_Q).y⟩ := by
      rw [← hg, ← xgcd_g]
    exact ⟨_, _, xgcd_bezout_of_coprime hg, hpair, exec_keyset_done hf ⟨hp, hq⟩ hg⟩
  · rw [exec_fault (i := .keyset) hf (keysetRule_congruence (not_and_or.mpr hpq)), encode_keyset]
  · rw [exec_fault (i := .keyset) hf (keysetRule_notCoprime ⟨hp, hq⟩ hg), encode_keyset]

/-! ### Any Bezout pair (R117) -/

section
variable {p q : Nat} {a b a' b' : Int}

/-- Two Bezout pairs differ by a multiple of `q` in the first coefficient, hence their terms by one of `p * q`. -/
theorem dvd_sub_of_bezout (h : a * p + b * q = 1) (h' : a' * p + b' * q = 1) : ((p * q : Nat) : Int) ∣ (a - a') * p := by
  refine ⟨a * (b' - b) + (a - a') * b, ?_⟩
  push_cast
  linear_combination (-(a - a') * p) * h + a * p * (h - h')

/-- Exchanging the pair changes a combination of the two terms by a multiple of `p * q`. -/
theorem crtTerm_emod_eq (h : a * p + b * q = 1) (h' : a' * p + b' * q = 1) (u v : Int) :
    (a * p * u + b * q * v) % (p * q : Nat) = (a' * p * u + b' * q * v) % (p * q : Nat) := by
  refine (Int.modEq_iff_dvd.mpr ?_).symm
  have hsub : a * p * u + b * q * v - (a' * p * u + b' * q * v) = (a - a') * p * (u - v) := by
    linear_combination v * (h - h')
  rw [hsub]
  exact Dvd.dvd.mul_right (dvd_sub_of_bezout h h') _

end

/-- Settles O31: each candidate is a combination of the two terms. -/
theorem candidatesIndependentOfBezout : Obligations.CandidatesIndependentOfBezout := by
  unfold Obligations.CandidatesIndependentOfBezout
  intro p q r s a b a' b' _ h h'
  have hx := crtTerm_emod_eq h h' s r
  have hy := crtTerm_emod_eq h h' s (-r)
  simp only [mul_neg, ← sub_eq_add_neg] at hy
  simp only [crt4, hx, hy]

end Sys2Proof.Machine
end

