-- ==== Sys2Proof/Proofs/Candidates.lean ====
section
/-! PROOFS. The four candidates (R132): their ranges (R133), which of them square to `c` (R134), the plaintext among them
(R135), the exchanged roles (R137), and the width of their modulus (R187). -/

namespace Sys2Proof.Machine

/-! ### The width of the modulus (R187) -/

/-- The rules that raise `WIDTH`, and when: after the congruence, on a product of 2^W or more. -/
theorem ruleOf_eq_width_iff {i : Instr} {s : State} :
    ruleOf i s = .error .WIDTH ↔ (i = .crtsqrt ∨ i = .bdec) ∧ s.keyCongruent ∧ 2 ^ s.par.W ≤ s.key.K_P * s.key.K_Q := by
  constructor
  · intro h
    cases i with
    | crtsqrt => simpa using crtsqrtRule_error h
    | bdec => simpa using bdecRule_error h
    | sieve k => simpa using sieveRule_error h
    | xgcd k => simpa using xgcdRule_error h
    | keyset => simpa using keysetRule_error h
    | modsqr | modmul | modexp => simpa using modRule_error h
    | benc => simpa using bencRule_error h
  · rintro ⟨rfl | rfl, hk, hw⟩
    · exact crtsqrtRule_keyTests (keyTests_width hk hw)
    · exact bdecRule_keyTests (keyTests_width hk hw)

/-- Settles O37, by where the rules raise `WIDTH`. -/
theorem widthFaults : Obligations.WidthFaults := by
  unfold Obligations.WidthFaults
  refine ⟨fun s i hf hi hp hq hw => exec_fault hf (ruleOf_eq_width_iff.mpr ⟨hi, ⟨hp, hq⟩, hw⟩), fun s t i h ha => ?_⟩
  obtain ⟨hi, ⟨hp, hq⟩, hw⟩ := ruleOf_eq_width_iff.mp (ruleOf_error_of_exec h ha)
  exact ⟨hi, hp, hq, hw⟩

/-! ### Ranges (R133) -/

section
variable {p q : Nat} (a b : Int) (r s : Nat)

theorem crt4_v2 : (crt4 p q a b r s).v2 = p * q - (crt4 p q a b r s).v0 := rfl

theorem crt4_v3 : (crt4 p q a b r s).v3 = p * q - (crt4 p q a b r s).v1 := rfl

/-- No candidate is above the modulus. -/
theorem crt4_le (h : 0 < p * q) : ∀ v ∈ (crt4 p q a b r s).toList, v ≤ p * q := by
  have h0 := crt4_v0_lt a b r s h
  have h1 := crt4_v1_lt a b r s h
  simp only [Candidates.toList, List.forall_mem_cons, crt4_v2, crt4_v3]
  exact ⟨h0.le, h1.le, Nat.sub_le _ _, Nat.sub_le _ _, by simp⟩

end

/-- Settles O38: the first two are residues, and the others their complements. -/
theorem candidateRanges : Obligations.CandidateRanges := by
  unfold Obligations.CandidateRanges
  intro p q r s a b h
  have h0 := crt4_v0_lt a b r s h
  have h1 := crt4_v1_lt a b r s h
  rw [crt4_v2, crt4_v3]
  refine ⟨h0, h1, ?_, ?_, ?_, ?_, ?_, ?_⟩ <;> omega

/-! ### Exchanged roles (R137) -/

/-- The residues of a number and of its negative are complements, unless they are 0. -/
theorem emod_neg_eq {n y y' : Nat} {z : Int} (hlt : y < n) (hy : (y : Int) = z % n) (hy' : (y' : Int) = -z % n)
    (h : y ≠ 0) : y' = n - y := by
  have hz : -z = ((n - y : Nat) : Int) + n * (-(z / n) - 1) := by
    have hdiv := Int.mul_ediv_add_emod z n
    rw [← hy] at hdiv
    rw [Nat.cast_sub hlt.le]
    linear_combination hdiv
  rw [hz, Int.add_mul_emod_self_left, ← Int.natCast_mod, Nat.mod_eq_of_lt (by omega)] at hy'
  exact_mod_cast hy'

/-- Settles O41: the sum of the two terms does not change, and their difference changes its sign. -/
theorem swappedPrimeRoles : Obligations.SwappedPrimeRoles := by
  unfold Obligations.SwappedPrimeRoles
  intro p q r s a b h
  have h0 : (crt4 q p b a s r).v0 = (crt4 p q a b r s).v0 := by
    simp only [crt4, Nat.mul_comm q p, add_comm]
  have h2 : (crt4 q p b a s r).v2 = (crt4 p q a b r s).v2 := by rw [crt4_v2, crt4_v2, h0, Nat.mul_comm]
  refine ⟨h0, h2, fun hne => ?_⟩
  have h1 : (crt4 q p b a s r).v1 = p * q - (crt4 p q a b r s).v1 := by
    refine emod_neg_eq (crt4_v1_lt a b r s h) (crt4_v1_cast a b r s h) ?_ hne
    rw [crt4_v1_cast b a s r (Nat.mul_comm p q ▸ h), Nat.mul_comm q p, neg_sub]
  refine ⟨h1, h1, ?_⟩
  rw [crt4_v3, h1, Nat.mul_comm q p, Nat.sub_sub_self (crt4_v1_lt a b r s h).le]

/-! ### Square roots modulo one prime (R130) -/

/-- By Fermat, the power of a square is a root of it. -/
theorem rootp_sq {c p : Nat} (hp : IsPrime p) (hmod : p % 4 = 3) :
    rootp c p * rootp c p ≡ c [MOD p] ↔ IsSquareMod c p := by
  have hprime : Fact p.Prime := ⟨isPrime_iff.mp hp⟩
  constructor
  · intro h
    exact ⟨_, h⟩
  · rintro ⟨t, ht⟩
    have hroot : (rootp c p : ZMod p) = (c : ZMod p) ^ ((p + 1) / 4) := by
      rw [rootp_eq c (one_le_of_mod_four_eq_three hmod), ZMod.natCast_mod, Nat.cast_pow]
    have hc : (c : ZMod p) = t ^ 2 := by
      rw [← Nat.cast_pow, sq]
      exact ((ZMod.natCast_eq_natCast_iff _ _ _).mpr ht).symm
    have hexp : 2 * ((p + 1) / 4) * 2 = p + 1 := by omega
    rw [← ZMod.natCast_eq_natCast_iff, Nat.cast_mul, hroot, hc, ← pow_mul, ← pow_two, ← pow_mul, hexp, pow_succ,
      ZMod.pow_card, sq]

/-! ### The candidates modulo each prime (R132) -/

section
variable {p q r s : Nat} {a b : Int}

/-- With a·p + b·q = 1, the combination of the terms for `u` and `v` is `u` modulo `p` and `v` modulo `q`. -/
theorem crtTerm_modEq (h : a * p + b * q = 1) (u v : Int) :
    a * p * v + b * q * u ≡ u [ZMOD p] ∧ a * p * v + b * q * u ≡ v [ZMOD q] := by
  constructor
  · refine Int.modEq_iff_dvd.mpr ⟨a * (u - v), ?_⟩
    linear_combination -u * h
  · refine Int.modEq_iff_dvd.mpr ⟨b * (v - u), ?_⟩
    linear_combination -v * h

/-- A residue modulo the product is one modulo each factor. -/
theorem emod_mul_modEq (p q : Nat) (z : Int) : z % (p * q : Nat) ≡ z [ZMOD p] ∧ z % (p * q : Nat) ≡ z [ZMOD q] := by
  have hmod := Int.mod_modEq z (p * q : Nat)
  rw [Nat.cast_mul] at hmod ⊢
  exact ⟨hmod.of_mul_right _, hmod.of_mul_left _⟩

theorem crt4_v0_modEq (hn : 0 < p * q) (h : a * p + b * q = 1) :
    ((crt4 p q a b r s).v0 : Int) ≡ r [ZMOD p] ∧ ((crt4 p q a b r s).v0 : Int) ≡ s [ZMOD q] := by
  rw [crt4_v0_cast a b r s hn]
  obtain ⟨hp, hq⟩ := emod_mul_modEq p q (a * p * s + b * q * r)
  obtain ⟨hr, hs⟩ := crtTerm_modEq h r s
  exact ⟨hp.trans hr, hq.trans hs⟩

theorem crt4_v1_modEq (hn : 0 < p * q) (h : a * p + b * q = 1) :
    ((crt4 p q a b r s).v1 : Int) ≡ -r [ZMOD p] ∧ ((crt4 p q a b r s).v1 : Int) ≡ s [ZMOD q] := by
  rw [crt4_v1_cast a b r s hn, sub_eq_add_neg, ← mul_neg]
  obtain ⟨hp, hq⟩ := emod_mul_modEq p q (a * p * s + b * q * -r)
  obtain ⟨hr, hs⟩ := crtTerm_modEq h (-r) s
  exact ⟨hp.trans hr, hq.trans hs⟩

/-- The complement to a multiple of the modulus is the negative. -/
theorem sub_modEq_neg {n m x : Nat} (hm : m ∣ n) (hx : x ≤ n) : ((n - x : Nat) : Int) ≡ -x [ZMOD m] := by
  rw [Nat.cast_sub hx]
  refine Int.modEq_iff_dvd.mpr ?_
  rw [show -(x : Int) - (n - x) = -n by ring, dvd_neg]
  exact Int.natCast_dvd_natCast.mpr hm

theorem mul_self_modEq_of_neg {m x y : Int} (h : x ≡ -y [ZMOD m]) : x * x ≡ y * y [ZMOD m] := by
  simpa using h.mul h

/-- Every candidate squares to `r * r` modulo `p` and to `s * s` modulo `q`: it is ±`r` there and ±`s` here. -/
theorem crt4_mul_self_modEq (hn : 0 < p * q) (h : a * p + b * q = 1) {v : Nat} (hv : v ∈ (crt4 p q a b r s).toList) :
    v * v ≡ r * r [MOD p] ∧ v * v ≡ s * s [MOD q] := by
  obtain ⟨h0p, h0q⟩ := crt4_v0_modEq (r := r) (s := s) hn h
  obtain ⟨h1p, h1q⟩ := crt4_v1_modEq (r := r) (s := s) hn h
  have hx := (crt4_v0_lt a b r s hn).le
  have hy := (crt4_v1_lt a b r s hn).le
  simp only [← Int.natCast_modEq_iff, Nat.cast_mul]
  simp only [Candidates.toList, List.mem_cons, List.not_mem_nil, or_false, crt4_v2, crt4_v3] at hv
  rcases hv with rfl | rfl | rfl | rfl
  · exact ⟨h0p.mul h0p, h0q.mul h0q⟩
  · exact ⟨mul_self_modEq_of_neg h1p, h1q.mul h1q⟩
  · exact ⟨(mul_self_modEq_of_neg (sub_modEq_neg (Nat.dvd_mul_right p q) hx)).trans (h0p.mul h0p),
      (mul_self_modEq_of_neg (sub_modEq_neg (Nat.dvd_mul_left q p) hx)).trans (h0q.mul h0q)⟩
  · exact ⟨(mul_self_modEq_of_neg (sub_modEq_neg (Nat.dvd_mul_right p q) hy)).trans (mul_self_modEq_of_neg h1p),
      (mul_self_modEq_of_neg (sub_modEq_neg (Nat.dvd_mul_left q p) hy)).trans (h1q.mul h1q)⟩

end

/-! ### All four or none (R134) -/

section
variable {p q c : Nat} {a b : Int}

theorem ProperKey.modulus_pos (h : ProperKey p q a b) : 0 < p * q :=
  Nat.mul_pos (one_le_of_mod_four_eq_three h.congr_p) (one_le_of_mod_four_eq_three h.congr_q)

theorem ProperKey.coprime (h : ProperKey p q a b) : Nat.Coprime p q :=
  gcd_eq_one_of_isPrime h.prime_p h.prime_q h.distinct

/-- Each of the four squares to `c` exactly if `c` is a square modulo both primes. -/
theorem candidate_sq_iff (h : ProperKey p q a b) {v : Nat} (hv : v ∈ (crt4 p q a b (rootp c p) (rootp c q)).toList) :
    v * v % (p * q) = c % (p * q) ↔ IsSquareMod c p ∧ IsSquareMod c q := by
  obtain ⟨hp, hq⟩ := crt4_mul_self_modEq h.modulus_pos h.bezout hv
  rw [← rootp_sq h.prime_p h.congr_p, ← rootp_sq h.prime_q h.congr_q]
  calc v * v % (p * q) = c % (p * q) ↔ v * v ≡ c [MOD p] ∧ v * v ≡ c [MOD q] :=
        (Nat.modEq_and_modEq_iff_modEq_mul h.coprime).symm
    _ ↔ _ := and_congr ⟨hp.symm.trans, hp.trans⟩ ⟨hq.symm.trans, hq.trans⟩

end

/-- Settles O39: the condition on `c` is the same for each candidate. -/
theorem candidatesAllOrNone : Obligations.CandidatesAllOrNone := by
  unfold Obligations.CandidatesAllOrNone
  exact fun p q c a b hk => ⟨fun hsq v hv => (candidate_sq_iff hk hv).mpr hsq,
    fun hnot v hv he => hnot ((candidate_sq_iff hk hv).mp he)⟩

/-! ### The plaintext (R135) -/

/-- Modulo a prime a square has no roots but ± one of them. -/
theorem modEq_or_neg_of_sq {p : Nat} (hp : IsPrime p) {m r : Int} (h : m * m ≡ r * r [ZMOD p]) :
    m ≡ r [ZMOD p] ∨ m ≡ -r [ZMOD p] := by
  have hprime : Prime (p : Int) := Nat.prime_iff_prime_int.mp (isPrime_iff.mp hp)
  have hdvd : (p : Int) ∣ (r - m) * (-r - m) := by
    rw [show (r - m) * (-r - m) = -(r * r - m * m) by ring, dvd_neg]
    exact Int.modEq_iff_dvd.mp h
  exact (hprime.dvd_or_dvd hdvd).imp Int.modEq_iff_dvd.mpr Int.modEq_iff_dvd.mpr

/-- Of the numbers up to `n`, only a residue and its complement are ± that residue. -/
theorem eq_or_eq_sub_of_modEq {n x m : Nat} (hx : x < n) (hm : m ≤ n)
    (h : (m : Int) ≡ x [ZMOD n] ∨ (m : Int) ≡ -x [ZMOD n]) : m = x ∨ m = n - x := by
  obtain ⟨k, hk⟩ | ⟨k, hk⟩ := h.imp Int.modEq_iff_dvd.mp Int.modEq_iff_dvd.mp
  all_goals
    have hk1 : k < 1 := by nlinarith
    have hk2 : -2 < k := by nlinarith
    obtain rfl | rfl : k = 0 ∨ k = -1 := by omega
    · exact .inl (by omega)
    · exact .inr (by omega)

section
variable {p q r s m : Nat} {a b : Int}

/-- A number up to `n` that is ±`r` modulo `p` and ±`s` modulo `q` is a candidate: each choice of the two signs is one of
±x and ±y. -/
theorem mem_candidates_of_modEq (hn : 0 < p * q) (hc : Nat.Coprime p q) (h : a * p + b * q = 1) (hm : m ≤ p * q)
    (hp : (m : Int) ≡ r [ZMOD p] ∨ (m : Int) ≡ -r [ZMOD p]) (hq : (m : Int) ≡ s [ZMOD q] ∨ (m : Int) ≡ -s [ZMOD q]) :
    m ∈ (crt4 p q a b r s).toList := by
  obtain ⟨h0p, h0q⟩ := crt4_v0_modEq (r := r) (s := s) hn h
  obtain ⟨h1p, h1q⟩ := crt4_v1_modEq (r := r) (s := s) hn h
  have hboth : ∀ z : Int, (m : Int) ≡ z [ZMOD p] → (m : Int) ≡ z [ZMOD q] → (m : Int) ≡ z [ZMOD (p * q : Nat)] :=
    fun z hzp hzq => by
      rw [Nat.cast_mul]
      exact (Int.modEq_and_modEq_iff_modEq_mul (m := (p : Int)) (n := q) hc).mp ⟨hzp, hzq⟩
  have hx := eq_or_eq_sub_of_modEq (crt4_v0_lt a b r s hn) hm
  have hy := eq_or_eq_sub_of_modEq (crt4_v1_lt a b r s hn) hm
  have hxy : (m = (crt4 p q a b r s).v0 ∨ m = p * q - (crt4 p q a b r s).v0) ∨
      (m = (crt4 p q a b r s).v1 ∨ m = p * q - (crt4 p q a b r s).v1) := by
    rcases hp with hp | hp <;> rcases hq with hq | hq
    · exact .inl (hx (.inl (hboth _ (hp.trans h0p.symm) (hq.trans h0q.symm))))
    · exact .inr (hy (.inr (hboth _ (hp.trans (by simpa using h1p.neg.symm)) (hq.trans h1q.neg.symm))))
    · exact .inr (hy (.inl (hboth _ (hp.trans h1p.symm) (hq.trans h1q.symm))))
    · exact .inl (hx (.inr (hboth _ (hp.trans h0p.neg.symm) (hq.trans h0q.neg.symm))))
  simp only [Candidates.toList, List.mem_cons, List.not_mem_nil, or_false, crt4_v2, crt4_v3]
  rwa [or_or_or_comm, or_assoc] at hxy

end

/-- The number whose square was taken is among the candidates, if it is no larger than n. -/
theorem mem_candidates_iff {p q c m : Nat} {a b : Int} (h : ProperKey p q a b) (hc : c % (p * q) = m * m % (p * q)) :
    m ∈ (crt4 p q a b (rootp c p) (rootp c q)).toList ↔ m ≤ p * q := by
  refine ⟨crt4_le a b _ _ h.modulus_pos m, fun hm => ?_⟩
  obtain ⟨hcp, hcq⟩ : c ≡ m * m [MOD p] ∧ c ≡ m * m [MOD q] := (Nat.modEq_and_modEq_iff_modEq_mul h.coprime).mpr hc
  have hrp := (rootp_sq h.prime_p h.congr_p).mpr ⟨m, hcp.symm⟩
  have hrq := (rootp_sq h.prime_q h.congr_q).mpr ⟨m, hcq.symm⟩
  have hp := (Int.natCast_modEq_iff).mpr (hrp.trans hcp).symm
  have hq := (Int.natCast_modEq_iff).mpr (hrq.trans hcq).symm
  rw [Nat.cast_mul, Nat.cast_mul] at hp hq
  exact mem_candidates_of_modEq h.modulus_pos h.coprime h.bezout hm (modEq_or_neg_of_sq h.prime_p hp)
    (modEq_or_neg_of_sq h.prime_q hq)

/-- Settles O40, by the roots of the square modulo each prime. -/
theorem plaintextAmongCandidates : Obligations.PlaintextAmongCandidates := by
  unfold Obligations.PlaintextAmongCandidates
  exact fun p q c m a b hk hc => mem_candidates_iff hk hc

end Sys2Proof.Machine
end

