-- ==== Sys2Proof/Proofs/Invariant.lean ====
section
/-! PROOFS. The invariant of legal states: it holds after reset (R57) and every step keeps it (R9, R28, R48, R52, R101). -/

namespace Sys2Proof.Machine

/-! ### What the invariant depends on -/

/-- Two states agree on what the invariant constrains beside the ranges: the parameters, the latch, `BD_STAT`, the list
with its count, and the scratch. -/
structure State.SameGuarded (s t : State) : Prop where
  par : t.par = s.par
  status : t.ctl.STATUS = s.ctl.STATUS
  fcode : t.ctl.FCODE = s.ctl.FCODE
  fcmd : t.ctl.FCMD = s.ctl.FCMD
  stat : t.bd.BD_STAT = s.bd.BD_STAT
  count : t.sv.PCOUNT = s.sv.PCOUNT
  PL : t.PL = s.PL
  SV : t.SV = s.SV

section
variable {s t : State}

theorem State.LatchLegal.congr (h : s.LatchLegal) (hstatus : t.ctl.STATUS = s.ctl.STATUS)
    (hcode : t.ctl.FCODE = s.ctl.FCODE) (hcmd : t.ctl.FCMD = s.ctl.FCMD) : t.LatchLegal := by
  rwa [State.LatchLegal, State.faulted, hstatus, hcode, hcmd]

theorem State.StatLegal.congr (h : s.StatLegal) (hstat : t.bd.BD_STAT = s.bd.BD_STAT) : t.StatLegal := by
  rwa [State.StatLegal, hstat]

theorem State.ListLegal.congr (h : s.ListLegal) (hpar : t.par = s.par) (hcount : t.sv.PCOUNT = s.sv.PCOUNT)
    (hPL : t.PL = s.PL) : t.ListLegal := by
  obtain ⟨canonical, counted, bounded, primes, ascending⟩ := h
  constructor <;> simpa only [hpar, hcount, hPL]

theorem State.ScratchLegal.congr (h : s.ScratchLegal) (hpar : t.par = s.par) (hSV : t.SV = s.SV) : t.ScratchLegal := by
  obtain ⟨canonical, sound⟩ := h
  constructor <;> simpa only [hpar, hSV]

/-- A step that leaves the guarded fields has only the ranges to keep. -/
theorem State.Inv.of_sameGuarded (h : s.Inv) (hs : s.SameGuarded t) (hfits : t.Fits) : t.Inv where
  params := by rw [hs.par]; exact h.params
  fits := hfits
  latch := h.latch.congr hs.status hs.fcode hs.fcmd
  stat := h.stat.congr hs.stat
  list := h.list.congr hs.par hs.count hs.PL
  scratch := h.scratch.congr hs.par hs.SV

/-- Every register keeps its value or takes one in its range. -/
theorem State.Fits.of_regValue (h : s.Fits) (hpar : t.par = s.par)
    (hr : ∀ r : RegName, t.regValue r = s.regValue r ∨ InRange r.signed (r.width s.par) (t.regValue r)) : t.Fits := by
  intro r
  rw [hpar]
  rcases hr r with heq | hin
  · rw [heq]
    exact h r
  · exact hin

theorem State.SameCore.fits (hs : s.SameCore t) (h : s.Fits) : t.Fits := by
  obtain ⟨hpar, hms, hxg, hkey, hcr, hbe, hbd, hsv, hctl, -, -⟩ := hs
  refine h.of_regValue hpar fun r => .inl ?_
  cases r <;> simp only [State.regValue, hms, hxg, hkey, hcr, hbe, hbd, hsv, hctl]

/-- The port, the answer and the draw count are outside the invariant. -/
theorem State.Inv.of_sameCore (h : s.Inv) (hs : s.SameCore t) : t.Inv :=
  h.of_sameGuarded ⟨hs.par, by rw [hs.ctl], by rw [hs.ctl], by rw [hs.ctl], by rw [hs.bd], by rw [hs.sv], hs.PL, hs.SV⟩
    (hs.fits h.fits)

/-! ### Reset -/

/-- A state with the control registers at their reset values and nothing listed is legal, if its registers are in range. -/
theorem State.Inv.of_cleared (hp : t.par.wf = true) (hfits : t.Fits) (hctl : t.ctl = CtlRegs.reset)
    (hstat : t.bd.BD_STAT = 0#5) (hcount : t.sv.PCOUNT = 0) (hPL : t.PL = []) (hSV : t.SV = []) : t.Inv where
  params := hp
  fits := hfits
  latch := by
    have hf : ¬ t.faulted := by
      rw [State.faulted, hctl]
      decide
    rw [State.LatchLegal, hctl]
    exact ⟨fun _ => ⟨rfl, rfl⟩, fun h => absurd h hf, fun h => absurd h hf⟩
  stat := .inl hstat
  list := by constructor <;> simp [hcount, hPL, Memory.wf]
  scratch := by constructor <;> simp [hSV, Memory.wf]

theorem doReset_inv (hp : s.par.wf = true) : (doReset s).Inv :=
  .of_cleared hp (doReset_fits s) rfl rfl rfl rfl rfl

theorem resetWith_fits (p : Config.Params) : (State.resetWith p).Fits := by
  intro r
  cases r with
  | XG_X | XG_Y | K_A | K_B => exact inRange_of_natAbs_le (x := 0) (Nat.zero_le _)
  | BE_BYTE | BE_M | BE_BLK | BD_BLK | BD_BYTE | BD_STAT | CTRL | PHOLD | STATUS | FCODE | FCMD => exact inRange_toNat _
  | _ => exact inRange_natCast (v := 0) (Nat.two_pow_pos _)

end

/-- Settles O20: reset clears the latch and both memories, and its data registers hold 0. -/
theorem resetMeetsInv : Obligations.ResetMeetsInv := by
  unfold Obligations.ResetMeetsInv
  have hreset : ∀ p : Config.Params, p.wf = true → (State.resetWith p).Inv := fun p hp =>
    .of_cleared hp (resetWith_fits p) rfl rfl rfl rfl rfl
  exact ⟨hreset, hreset Config.defaultParams (by decide)⟩

/-! ### The results of the commands are in range (R9, R187) -/

section
variable {s u : State}

theorem setMsR_fits {v : Nat} (h : s.Fits) (hv : v < 2 ^ s.par.W) : (s.setMsR v).Fits :=
  h.of_regValue rfl fun r => by
    cases r with
    | MS_R => exact .inr (inRange_natCast hv)
    | _ => exact .inl rfl

theorem setXg_fits {g : Nat} {x y : Int} (h : s.Fits) (hg : g < 2 ^ s.par.W) (hx : x.natAbs ≤ 2 ^ s.par.W - 1)
    (hy : y.natAbs ≤ 2 ^ s.par.W - 1) : (s.setXg g x y).Fits :=
  h.of_regValue rfl fun r => by
    cases r with
    | XG_G => exact .inr (inRange_natCast hg)
    | XG_X => exact .inr (inRange_of_natAbs_le hx)
    | XG_Y => exact .inr (inRange_of_natAbs_le hy)
    | _ => exact .inl rfl

theorem setBezout_fits {a b : Int} (h : s.Fits) (ha : a.natAbs ≤ 2 ^ s.par.W - 1) (hb : b.natAbs ≤ 2 ^ s.par.W - 1) :
    (s.setBezout a b).Fits :=
  h.of_regValue rfl fun r => by
    cases r with
    | K_A => exact .inr (inRange_of_natAbs_le ha)
    | K_B => exact .inr (inRange_of_natAbs_le hb)
    | _ => exact .inl rfl

theorem setRoots_fits {r t v0 v1 v2 v3 : Nat} (h : s.Fits) (hv : ∀ v ∈ [r, t, v0, v1, v2, v3], v < 2 ^ s.par.W) :
    (s.setRoots r t v0 v1 v2 v3).Fits :=
  h.of_regValue rfl fun r => by
    cases r with
    | CR_R | CR_S | CAND0 | CAND1 | CAND2 | CAND3 => exact .inr (inRange_natCast (hv _ (by simp)))
    | _ => exact .inl rfl

theorem setCrC_fits {c : Nat} (h : s.Fits) (hc : c < 2 ^ s.par.W) : (s.setCrC c).Fits :=
  h.of_regValue rfl fun r => by
    cases r with
    | CR_C => exact .inr (inRange_natCast hc)
    | _ => exact .inl rfl

theorem setBlock_fits {m : BitVec 16} {c : Block} (h : s.Fits) : (s.setBlock m c).Fits :=
  h.of_regValue rfl fun r => by
    cases r with
    | BE_M | BE_BLK => exact .inr (inRange_toNat _)
    | _ => exact .inl rfl

theorem setByte_fits {b : Byte} {stat : BitVec 5} (h : s.Fits) : (s.setByte b stat).Fits :=
  h.of_regValue rfl fun r => by
    cases r with
    | BD_BYTE | BD_STAT => exact .inr (inRange_toNat _)
    | _ => exact .inl rfl

theorem setPrimes_fits {primes : List Nat} {cells : List Bool} (h : s.Fits) (hl : primes.length < 2 ^ s.par.W) :
    (s.setPrimes primes cells).Fits :=
  h.of_regValue rfl fun r => by
    cases r with
    | PCOUNT => exact .inr (inRange_natCast hl)
    | _ => exact .inl rfl

/-- Fault entry writes three registers that are held as words. -/
theorem faultEntry_fits {c : FaultCode} {w : Word} (h : s.Fits) : (faultEntry c w s).Fits :=
  h.of_regValue rfl fun r => by
    cases r with
    | STATUS | FCODE | FCMD => exact .inr (inRange_toNat _)
    | _ => exact .inl rfl

theorem rootp_lt (c : Nat) {p : Nat} (hp : 1 ≤ p) : rootp c p < p := by
  rw [rootp_eq c hp]
  exact Nat.mod_lt _ hp

/-- Under a key that passes its tests, the roots are below the primes and the candidates no larger than n < 2^W (R133). -/
theorem withCandidates_fits (h : s.Fits) (hk : s.keyCongruent) (hw : s.key.K_P * s.key.K_Q < 2 ^ s.par.W) (c : Nat) :
    (s.withCandidates c).Fits := by
  have hn := State.modulus_pos hk
  have hr : s.rootR c < s.key.K_P := rootp_lt c (one_le_of_mod_four_eq_three hk.1)
  have ht : s.rootS c < s.key.K_Q := rootp_lt c (one_le_of_mod_four_eq_three hk.2)
  have hp : s.key.K_P ≤ s.key.K_P * s.key.K_Q := Nat.le_mul_of_pos_right _ (Nat.pos_of_mul_pos_left hn)
  have hq : s.key.K_Q ≤ s.key.K_P * s.key.K_Q := Nat.le_mul_of_pos_left _ (Nat.pos_of_mul_pos_right hn)
  have hcand : ∀ v ∈ (s.candidates c).toList, v < 2 ^ s.par.W := fun v hv => (crt4_le _ _ _ _ hn v hv).trans_lt hw
  refine setRoots_fits h fun v hv => ?_
  rcases List.mem_cons.mp hv with rfl | hv
  · omega
  rcases List.mem_cons.mp hv with rfl | hv
  · omega
  exact hcand v hv

theorem State.Fits.lt {r : RegName} {v : Nat} (h : s.Fits) (hs : r.signed = false) (hv : s.regValue r = v) :
    v < 2 ^ r.width s.par := by
  have hin := h r
  simp only [InRange, hs, hv, Bool.false_eq_true, if_false] at hin
  omega

theorem gcd_lt_two_pow {a b W : Nat} (ha : a < 2 ^ W) (hb : b < 2 ^ W) : Nat.gcd a b < 2 ^ W := by
  rcases Nat.eq_zero_or_pos a with rfl | hpos
  · rwa [Nat.gcd_zero_left]
  · exact (Nat.gcd_le_left b hpos).trans_lt ha

/-- The number of entries of the list fits its register, as S <= 2^W. -/
theorem length_primes34_lt {p : Config.Params} {mn mx : Nat} (hp : p.wf = true) (hmax : mx < p.S) :
    (primes34 mn mx).length < 2 ^ p.W := by
  obtain ⟨-, hS, -, haddr⟩ := Params.wf_iff.mp hp
  have := length_primes34_le mn mx
  omega

/-- Every rule writes values in the range of their registers. -/
theorem ruleOf_fits {i : Instr} (h : s.Inv) (hu : ruleOf i s = .ok u) : u.Fits := by
  have hfits := h.fits
  obtain ⟨hW, -⟩ := Params.wf_iff.mp h.params
  have hM : s.ms.MS_M < 2 ^ s.par.W := hfits.lt (r := .MS_M) rfl rfl
  cases i with
  | sieve k =>
    obtain ⟨hmax, -, rfl⟩ := sieveRule_ok hu
    exact setPrimes_fits hfits (length_primes34_lt h.params hmax)
  | xgcd k =>
    obtain ⟨-, rfl⟩ := xgcdRule_ok hu
    have ha : s.xg.XG_A < 2 ^ s.par.W := hfits.lt (r := .XG_A) rfl rfl
    have hb : s.xg.XG_B < 2 ^ s.par.W := hfits.lt (r := .XG_B) rfl rfl
    obtain ⟨hx, hy⟩ := xgcd_natAbs_le_pow (by omega) ha hb
    exact setXg_fits hfits (xgcd_g _ _ ▸ gcd_lt_two_pow ha hb) hx hy
  | keyset =>
    obtain ⟨-, -, rfl⟩ := keysetRule_ok hu
    have hp : s.key.K_P < 2 ^ s.par.W := hfits.lt (r := .K_P) rfl rfl
    have hq : s.key.K_Q < 2 ^ s.par.W := hfits.lt (r := .K_Q) rfl rfl
    obtain ⟨hx, hy⟩ := xgcd_natAbs_le_pow (by omega) hp hq
    exact setBezout_fits hfits hx hy
  | modsqr | modmul =>
    obtain ⟨hm, rfl⟩ := modRule_ok hu
    exact setMsR_fits hfits ((Nat.mod_lt _ (Nat.pos_of_ne_zero hm)).trans hM)
  | modexp =>
    obtain ⟨hm, rfl⟩ := modRule_ok hu
    rw [modexp_eq _ _ (Nat.one_le_iff_ne_zero.mpr hm)]
    exact setMsR_fits hfits ((Nat.mod_lt _ (Nat.pos_of_ne_zero hm)).trans hM)
  | crtsqrt =>
    obtain ⟨hk, hw, rfl⟩ := crtsqrtRule_ok hu
    exact withCandidates_fits hfits hk hw _
  | benc =>
    obtain ⟨-, rfl⟩ := bencRule_ok hu
    exact setBlock_fits hfits
  | bdec =>
    obtain ⟨hk, hw, -, rfl⟩ := bdecRule_ok hu
    have hc : s.bd.BD_BLK.toNat < 2 ^ s.par.W := s.bd.BD_BLK.isLt.trans_le (Nat.pow_le_pow_right (by norm_num) hW)
    exact setByte_fits (setCrC_fits (withCandidates_fits hfits hk hw _) hc)

/-! ### The results of the commands are legal -/

/-- `SIEVE` leaves a legal list: the qualifying primes in ascending order, below S and no more than PLD (R102, R104). -/
theorem setPrimes_listLegal {mn mx : Nat} {cells : List Bool} (hmax : mx < s.par.S) :
    (s.setPrimes (primes34 mn mx) cells).ListLegal where
  canonical := Memory.wf_load _
  counted k := by
    simp [Memory.read_load]
  bounded := (length_primes34_le mn mx).trans (Nat.div_le_div_right hmax)
  primes k v hv := by
    rw [State.setPrimes_PL, Memory.read_load] at hv
    obtain ⟨-, hle, hprime, hmod⟩ := mem_primes34.mp (List.mem_of_getElem? hv)
    exact ⟨hprime, hmod, hle.trans_lt hmax⟩
  ascending j k x y hjk hx hy := by
    rw [State.setPrimes_PL, Memory.read_load] at hx hy
    obtain ⟨hj, rfl⟩ := List.getElem?_eq_some_iff.mp hx
    obtain ⟨hk, rfl⟩ := List.getElem?_eq_some_iff.mp hy
    exact List.pairwise_iff_getElem.mp (primes34_pairwise mn mx) j k hj hk hjk

/-- `SIEVE` leaves a legal scratch: `SV_MAX + 1` cells, each 1 exactly for a prime (R101). -/
theorem setPrimes_scratchLegal {mx : Nat} {primes : List Nat} (hmax : mx < s.par.S) :
    (s.setPrimes primes (sieve mx)).ScratchLegal where
  canonical := Memory.wf_load _
  sound i b hb := by
    rw [State.setPrimes_SV, Memory.read_load] at hb
    obtain ⟨hi, -⟩ := List.getElem?_eq_some_iff.mp hb
    rw [sieve_length] at hi
    exact ⟨(Nat.le_of_lt_succ hi).trans_lt hmax, sieve_getElem? hb⟩

/-- `BDEC` leaves a legal `BD_STAT` (R28). -/
theorem setByte_statLegal {b : Byte} (sel : Selection) : (s.setByte b sel.stat).StatLegal := by
  cases sel with
  | hit i h => exact .inr ⟨BitVec.ofNat 2 i, .inl rfl⟩
  | range i h => exact .inr ⟨BitVec.ofNat 2 i, .inr (.inl rfl)⟩
  | miss => exact .inr ⟨0#2, .inr (.inr rfl)⟩

/-- Every rule keeps the invariant: `SIEVE` writes the memories, `BDEC` the status, and no other one a guarded field. -/
theorem ruleOf_inv {i : Instr} (h : s.Inv) (hu : ruleOf i s = .ok u) : u.Inv := by
  have hfits : u.Fits := ruleOf_fits h hu
  cases i with
  | sieve k =>
    obtain ⟨hmax, -, rfl⟩ := sieveRule_ok hu
    exact ⟨h.params, hfits, h.latch, h.stat, setPrimes_listLegal hmax, setPrimes_scratchLegal hmax⟩
  | xgcd k =>
    obtain ⟨-, rfl⟩ := xgcdRule_ok hu
    exact h.of_sameGuarded ⟨rfl, rfl, rfl, rfl, rfl, rfl, rfl, rfl⟩ hfits
  | keyset =>
    obtain ⟨-, -, rfl⟩ := keysetRule_ok hu
    exact h.of_sameGuarded ⟨rfl, rfl, rfl, rfl, rfl, rfl, rfl, rfl⟩ hfits
  | modsqr | modmul | modexp =>
    obtain ⟨-, rfl⟩ := modRule_ok hu
    exact h.of_sameGuarded ⟨rfl, rfl, rfl, rfl, rfl, rfl, rfl, rfl⟩ hfits
  | crtsqrt =>
    obtain ⟨-, -, rfl⟩ := crtsqrtRule_ok hu
    exact h.of_sameGuarded ⟨rfl, rfl, rfl, rfl, rfl, rfl, rfl, rfl⟩ hfits
  | benc =>
    obtain ⟨-, rfl⟩ := bencRule_ok hu
    exact h.of_sameGuarded ⟨rfl, rfl, rfl, rfl, rfl, rfl, rfl, rfl⟩ hfits
  | bdec =>
    obtain ⟨-, -, -, rfl⟩ := bdecRule_ok hu
    exact ⟨h.params, hfits, h.latch, setByte_statLegal _, h.list.congr rfl rfl rfl, h.scratch.congr rfl rfl⟩

end

/-! ### Every transaction keeps the invariant -/

section
variable {s t : State} {i : Instr} {w : Word} {c : FaultCode}

theorem FaultCode.code_bounds (c : FaultCode) : 1 ≤ c.code.toNat ∧ c.code.toNat ≤ 9 := by cases c <;> decide

theorem FaultCode.code_eq_one_iff {c : FaultCode} : c.code = 1#4 ↔ c = .ILLEGAL_CMD := by cases c <;> decide

/-- Fault entry keeps the invariant, if the code 1 goes with an illegal word, and with no other (R182). -/
theorem faultEntry_inv (h : s.Inv) (hc : c = .ILLEGAL_CMD ↔ ∀ i, decode w ≠ .ok i) : (faultEntry c w s).Inv where
  params := h.params
  fits := faultEntry_fits h.fits
  latch := ⟨fun hf => absurd rfl hf, fun _ => c.code_bounds, fun _ => FaultCode.code_eq_one_iff.trans hc⟩
  stat := h.stat.congr rfl
  list := h.list.congr rfl rfl rfl
  scratch := h.scratch.congr rfl rfl

theorem exec_inv (h : s.Inv) (ht : exec i s = .next t) : t.Inv := by
  rcases exec_cases ht with ⟨-, rfl⟩ | ⟨-, c, hc, rfl⟩ | ⟨-, u, hu, rfl⟩
  · exact h.of_sameCore (sameCore_answering s _)
  · obtain ⟨hne, -⟩ := ruleOf_error_ne hc
    exact faultEntry_inv h (iff_of_false hne fun hall => hall i (decode_eq_ok_iff.mpr rfl))
  · exact (ruleOf_inv h hu).of_sameCore (sameCore_answering u _)

theorem doIssue_inv (h : s.Inv) (ht : doIssue w s = .next t) : t.Inv := by
  rcases doIssue_cases (w := w) (s := s) with ⟨-, he⟩ | ⟨-, herr, he⟩ | ⟨-, i, -, he⟩
  · obtain rfl : reject s = t := Host.Outcome.next.inj (he.symm.trans ht)
    exact h.of_sameCore (sameCore_answering s _)
  · obtain rfl : faultEntry .ILLEGAL_CMD w s = t := Host.Outcome.next.inj (he.symm.trans ht)
    exact faultEntry_inv h (iff_of_true rfl (not_exists.mp (exists_decode_error_iff.mp herr)))
  · exact exec_inv h (he.symm.trans ht)

/-- A `WR` of a pattern of the register's width writes a value in the register's range (R9, R61). -/
theorem writeReg_fits {r : RegName} {v : Nat} (h : s.Fits) (hv : v < 2 ^ r.width s.par) : (s.writeReg r v).Fits := by
  obtain ⟨hpar, -⟩ := s.writeReg_rest r v
  cases hw : r.writable with
  | false => rwa [s.writeReg_readOnly r v hw]
  | true =>
    refine h.of_regValue hpar fun r' => ?_
    by_cases hr : r' = r
    · subst hr
      rw [s.writeReg_regValue_self hw hv]
      cases hs : r'.signed with
      | false => exact .inr (inRange_natCast hv)
      | true =>
        rw [RegName.width_of_signed _ hs] at hv ⊢
        exact .inr (inRange_signedOf hv)
    · exact .inl (s.writeReg_regValue_of_ne v hr)

/-- No guarded field is host-writable. -/
theorem sameGuarded_writeReg (s : State) (r : RegName) (v : Nat) : s.SameGuarded (s.writeReg r v) := by
  cases r <;> exact ⟨rfl, rfl, rfl, rfl, rfl, rfl, rfl, rfl⟩

theorem doWr_inv {j : RegIndex} {v : Nat} (h : s.Inv) (he : Transaction.expressible s.par (.wr j v) = true) :
    (doWr j v s).Inv := by
  by_cases hf : s.faulted
  · rw [doWr_faulted j v hf]
    exact h.of_sameCore (sameCore_answering s _)
  by_cases hj : ∃ r : RegName, r.index = j
  · obtain ⟨r, rfl⟩ := hj
    have hv : v < 2 ^ r.width s.par := by simpa [Transaction.expressible] using he
    rw [doWr_index r v hf]
    exact (h.of_sameGuarded (sameGuarded_writeReg s r v) (writeReg_fits h.fits hv)).of_sameCore (sameCore_answering _ _)
  · rw [doWr_unmapped v (not_exists.mp hj)]
    exact h.of_sameCore (sameCore_answering s _)

theorem perform_inv {x : Transaction} (h : s.Inv) (he : x.expressible s.par = true) (ht : perform x s = .next t) :
    t.Inv := by
  cases x with
  | wr j v =>
    obtain rfl := Host.Outcome.next.inj ht
    exact doWr_inv h he
  | rd j =>
    obtain rfl := Host.Outcome.next.inj ht
    exact h.of_sameCore (doRd_frame j s).1
  | rdpl k =>
    obtain rfl := Host.Outcome.next.inj ht
    exact h.of_sameCore (doRdpl_frame k s).1
  | issue w => exact doIssue_inv h ht
  | reset =>
    obtain rfl := Host.Outcome.next.inj ht
    exact doReset_inv h.params

end

/-- Settles O19: a step holds the state or performs one transaction, each of which keeps the invariant. -/
theorem stepKeepsInv : Obligations.StepKeepsInv := by
  unfold Obligations.StepKeepsInv
  intro s t h ht
  rcases step_cases ht with ⟨-, rfl⟩ | ⟨x, rest, -, he, hx⟩
  · exact h
  · exact perform_inv (h.of_sameCore (sameCore_withPort s rest)) he hx

end Sys2Proof.Machine
end

