-- ==== Sys2Proof/Proofs/Blocks.lean ====
section
/-! PROOFS. What `RDecode` accepts (R144), and the commands `BENC` (R150) and `BDEC` (R160, R166, R192). -/

namespace Sys2Proof.Machine

/-! ### What `RDecode` accepts (R144) -/

/-- A string of an even number of characters with equal halves is that of an encoding: `hi` has `k` of its `2·k` bits. -/
theorem eq_REncode_of_RDecode {v h : Nat} (hd : RDecode v = some h) : 1 ≤ h ∧ v = REncode h := by
  obtain ⟨hlen, heven, heq, rfl⟩ := (RDecode_eq_some_iff v h).mp hd
  have hv : 1 ≤ v := by
    by_contra h0
    obtain rfl : v = 0 := by omega
    exact absurd hlen (by decide)
  rw [nbits_of_pos hv] at *
  obtain ⟨k, hk⟩ : ∃ k, bitlen v = 2 * k + 2 := ⟨bitlen v / 2 - 1, by omega⟩
  obtain ⟨hlow, hupp, -⟩ := bitlen_bounds (Nat.one_le_iff_ne_zero.mp hv)
  have hhalf : bitlen v / 2 = k + 1 := by omega
  rw [hhalf] at heq ⊢
  have hbit : bitlen (v / 2 ^ (k + 1)) = k + 1 := by
    refine bitlen_eq ?_ ?_
    · rw [Nat.le_div_iff_mul_le (Nat.two_pow_pos _), ← pow_add]
      exact (Nat.pow_le_pow_right (by norm_num) (by omega)).trans hlow
    · rw [Nat.div_lt_iff_lt_mul (Nat.two_pow_pos _), ← pow_add]
      exact hupp.trans_le (Nat.pow_le_pow_right (by norm_num) (by omega))
  have hpos : 1 ≤ v / 2 ^ (k + 1) := by
    by_contra h0
    rw [show v / 2 ^ (k + 1) = 0 by omega] at hbit
    exact absurd hbit (by simp [bitlen])
  refine ⟨hpos, ?_⟩
  rw [REncode_of_pos hpos, hbit]
  conv_lhs => rw [← Nat.div_add_mod' v (2 ^ (k + 1)), ← heq]

/-- Every number from 1 on comes back from its encoding. -/
theorem RDecode_REncode {b : Nat} (hb : 1 ≤ b) : RDecode (REncode b) = some b := by
  obtain ⟨-, hlt, hlen⟩ := bitlen_bounds (Nat.one_le_iff_ne_zero.mp hb)
  have hbits : nbits (REncode b) = 2 * bitlen b := (nbits_of_pos (one_le_REncode hb)).trans (bitlen_REncode hb)
  have hdiv : (b * 2 ^ bitlen b + b) / 2 ^ bitlen b = b := by
    rw [Nat.mul_comm, Nat.mul_add_div (Nat.two_pow_pos _), Nat.div_eq_of_lt hlt, Nat.add_zero]
  have hmod : (b * 2 ^ bitlen b + b) % 2 ^ bitlen b = b := by
    rw [Nat.mul_add_mod_self_right, Nat.mod_eq_of_lt hlt]
  rw [RDecode_eq_some_iff, hbits, Nat.mul_div_cancel_left _ (by norm_num), REncode_of_pos hb, hdiv, hmod]
  exact ⟨by omega, by omega, rfl, rfl⟩

theorem RDecode_eq_some_iff_REncode {v h : Nat} : RDecode v = some h ↔ 1 ≤ h ∧ v = REncode h := by
  refine ⟨eq_REncode_of_RDecode, ?_⟩
  rintro ⟨hpos, rfl⟩
  exact RDecode_REncode hpos

/-- Settles O44: the numbers accepted are the encodings; those below 1024 by computation. -/
theorem decodeAccepts : Obligations.DecodeAccepts := by
  unfold Obligations.DecodeAccepts
  refine ⟨fun v h => ?_, fun b => RDecode_REncode, rfl, by decide +kernel⟩
  rw [RDecode_eq_some_iff_REncode]
  refine and_congr_right fun hpos => ?_
  rw [REncode_of_pos hpos, Nat.mul_add, Nat.mul_one]

/-! ### `BENC` (R150) -/

section
variable {s : State}

theorem exec_benc_done (hf : ¬ s.faulted) (hn : s.be.BE_N ≠ 0) :
    exec .benc s = .next (finish (s.setBlock (BitVec.ofNat 16 (REncode s.be.BE_BYTE.toNat))
      (BitVec.ofNat 32 (REncode s.be.BE_BYTE.toNat * REncode s.be.BE_BYTE.toNat % s.be.BE_N)))) :=
  exec_done hf (bencRule_done hn (REncode_sq_mod_lt _ _))

end

/-- A number that fits in the bits of a word is what the word spells. -/
theorem toNat_ofNat_of_lt {n v : Nat} (h : v < 2 ^ n) : (BitVec.ofNat n v).toNat = v := by
  rw [BitVec.toNat_ofNat, Nat.mod_eq_of_lt h]

/-- Settles O45: both results are below the bounds of their registers, so no bit of them is lost. -/
theorem bencResult : Obligations.BencResult := by
  unfold Obligations.BencResult
  refine fun s hf hn => ⟨_, _, toNat_ofNat_of_lt ?_, toNat_ofNat_of_lt (REncode_sq_mod_lt _ _),
    exec_benc_done hf hn⟩
  exact Nat.lt_succ_of_le (REncode_byte_le s.be.BE_BYTE)

/-! ### Selections -/

theorem isHit_eq_true_iff {sel : Selection} : sel.isHit = true ↔ ∃ i h, sel = .hit i h := by
  cases sel <;> simp [Selection.isHit]

theorem isHit_eq_false_iff {sel : Selection} : sel.isHit = false ↔ ∀ i h, sel ≠ .hit i h := by
  cases sel <;> simp [Selection.isHit]

/-- A selected index is one of four. -/
theorem FirstDecoded.lt_four {v : Candidates} {i h : Nat} (hf : FirstDecoded v.toList i h) : i < 4 := by
  obtain ⟨⟨x, hx, -⟩, -⟩ := hf
  obtain ⟨hi, -⟩ := List.getElem?_eq_some_iff.mp hx
  exact hi

/-! ### `BDEC` (R160) -/

section
variable {s t : State}

theorem exec_bdec_done (hf : ¬ s.faulted) (hk : s.keyCongruent) (hw : s.key.K_P * s.key.K_Q < 2 ^ s.par.W)
    (hs : s.strict → (select4 (s.candidates s.bd.BD_BLK.toNat)).isHit = true) :
    exec .bdec s = .next (finish s.decrypted) :=
  exec_done hf (bdecRule_done hk hw hs)

/-- Under a congruent key, the candidates are those of the powers of R130. -/
theorem State.candidates_eq (h : s.keyCongruent) (c : Nat) :
    s.candidates c = crt4 s.key.K_P s.key.K_Q s.key.K_A s.key.K_B (c ^ ((s.key.K_P + 1) / 4) % s.key.K_P)
      (c ^ ((s.key.K_Q + 1) / 4) % s.key.K_Q) := by
  rw [State.candidates, State.rootR_eq h, State.rootS_eq h]

end

/-- Settles O48: the byte and the status are those of the selection, whose index and half fit their fields. -/
theorem bdecResult : Obligations.BdecResult := by
  unfold Obligations.BdecResult
  rintro s _ _ _ _ hf hp hq hw rfl rfl rfl rfl hsel
  have hk : s.keyCongruent := ⟨hp, hq⟩
  rw [← State.candidates_eq hk] at *
  have hs : s.strict → (select4 (s.candidates s.bd.BD_BLK.toNat)).isHit = true := fun hstrict =>
    isHit_eq_true_iff.mpr (hsel.resolve_right fun h0 => by rw [State.strict, h0] at hstrict; cases hstrict)
  refine ⟨(select4 (s.candidates s.bd.BD_BLK.toNat)).byte s.ctl.PHOLD, (select4 (s.candidates s.bd.BD_BLK.toNat)).stat,
    ?_, fun i h he => ?_, fun i h he => ?_, fun he => ?_⟩
  · rw [exec_bdec_done hf hk hw hs, ← State.rootR_eq hk, ← State.rootS_eq hk]
    rfl
  · obtain ⟨hfirst, hle⟩ := (select4_eq_hit_iff _ i h).mp he
    obtain ⟨hsel, hrest⟩ := packStat_fields (BitVec.ofNat 2 i) true false false
    rw [he]
    exact ⟨toNat_ofNat_of_lt (Nat.lt_succ_of_le hle),
      (congrArg BitVec.toNat hsel).trans (toNat_ofNat_of_lt hfirst.lt_four), hrest⟩
  · obtain ⟨hfirst, -⟩ := (select4_eq_range_iff _ i h).mp he
    obtain ⟨hsel, hrest⟩ := packStat_fields (BitVec.ofNat 2 i) false true false
    rw [he]
    exact ⟨rfl, (congrArg BitVec.toNat hsel).trans (toNat_ofNat_of_lt hfirst.lt_four), hrest⟩
  · obtain ⟨hsel, hrest⟩ := packStat_fields 0#2 false false true
    rw [he]
    exact ⟨rfl, congrArg BitVec.toNat hsel, hrest⟩

/-! ### Strict mode (R192) -/

/-- The rule that raises `DECODE_MISS`, and when: after the tests of the key. -/
theorem ruleOf_eq_decodeMiss_iff {i : Instr} {s : State} :
    ruleOf i s = .error .DECODE_MISS ↔
      i = .bdec ∧ s.strict ∧ s.keyCongruent ∧ s.key.K_P * s.key.K_Q < 2 ^ s.par.W ∧
        (select4 (s.candidates s.bd.BD_BLK.toNat)).isHit = false := by
  constructor
  · intro h
    cases i with
    | bdec =>
      obtain ⟨hc, -⟩ | ⟨hc, -⟩ | ⟨-, hk, hw, hstrict, hsel⟩ := bdecRule_error h
      · cases hc
      · cases hc
      · exact ⟨rfl, hstrict, hk, hw, hsel⟩
    | crtsqrt => simpa using crtsqrtRule_error h
    | sieve k => simpa using sieveRule_error h
    | xgcd k => simpa using xgcdRule_error h
    | keyset => simpa using keysetRule_error h
    | modsqr | modmul | modexp => simpa using modRule_error h
    | benc => simpa using bencRule_error h
  · rintro ⟨rfl, hstrict, hk, hw, hsel⟩
    simp only [ruleOf, bdecRule, keyTests_done hk hw]
    exact if_pos ⟨hsel, hstrict⟩

theorem encode_bdec : encode .bdec = 0x00000009#32 := by decide

/-- Settles O49, by where the rules raise `DECODE_MISS`. -/
theorem strictModeFaults : Obligations.StrictModeFaults := by
  unfold Obligations.StrictModeFaults
  refine ⟨fun s hf hstrict hp hq hw hsel => ?_, fun i s t h ha => ?_⟩
  · rw [exec_fault hf (ruleOf_eq_decodeMiss_iff.mpr ⟨rfl, hstrict, ⟨hp, hq⟩, hw, isHit_eq_false_iff.mpr hsel⟩),
      encode_bdec]
  · obtain ⟨hi, hstrict, ⟨hp, hq⟩, hw, hsel⟩ := ruleOf_eq_decodeMiss_iff.mp (ruleOf_error_of_exec h ha)
    exact ⟨hi, hstrict, hp, hq, hw, isHit_eq_false_iff.mp hsel⟩

/-! ### `BDEC` has no memory (R166) -/

/-- What `BDEC` gives: the fault of its rule, or the two register files that it writes. -/
def bdecGives (s : State) : Except FaultCode (BdRegs × CrRegs) := (bdecRule s).map fun u => (u.bd, u.cr)

/-- The rule in terms of what it reads: the width, the block, the key, `CTRL` and `PHOLD`. -/
theorem bdecGives_congr {s s' : State} (hW : s.par.W = s'.par.W) (hblk : s.bd.BD_BLK = s'.bd.BD_BLK) (hkey : s.key = s'.key)
    (hctrl : s.ctl.CTRL = s'.ctl.CTRL) (hphold : s.ctl.PHOLD = s'.ctl.PHOLD) : bdecGives s = bdecGives s' := by
  have htests : keyTests s = keyTests s' := by simp only [keyTests, State.keyCongruent, hkey, hW]
  obtain ⟨hR, hS, hcand⟩ := State.candidates_congr hkey
  simp only [bdecGives, bdecRule, htests, hcand, hblk, State.strict, hctrl, hphold]
  cases keyTests s' with
  | error c => rfl
  | ok _ =>
    dsimp only
    split
    · rfl
    · simp [Except.map, State.withCandidates, hR, hS, hcand, hblk]

/-- A `BDEC` that is not rejected answers what it gives. -/
theorem exec_bdec_gives {s t : State} (hf : ¬ s.faulted) (h : exec .bdec s = .next t) :
    (∃ c, bdecGives s = .error c ∧ t.answer = .completion (.fault c)) ∨
      bdecGives s = .ok (t.bd, t.cr) ∧ t.answer = .completion .done := by
  rcases exec_cases h with ⟨hr, -⟩ | ⟨-, c, hc, rfl⟩ | ⟨-, u, hu, rfl⟩
  · exact absurd hr hf
  · exact .inl ⟨c, congrArg (Except.map fun u : State => (u.bd, u.cr)) hc, rfl⟩
  · exact .inr ⟨congrArg (Except.map fun u : State => (u.bd, u.cr)) hu, rfl⟩

/-- Settles O50: two runs that agree on what the rule reads give the same. -/
theorem bdecMemoryless : Obligations.BdecMemoryless := by
  unfold Obligations.BdecMemoryless
  intro s s' t t' hW hblk hkey hctrl hphold hf hf' h h'
  have hsame := bdecGives_congr hW hblk hkey hctrl hphold
  rcases exec_bdec_gives hf h with ⟨c, hg, ha⟩ | ⟨hg, ha⟩ <;>
    rcases exec_bdec_gives hf' h' with ⟨c', hg', ha'⟩ | ⟨hg', ha'⟩ <;>
    rw [hg, hg'] at hsame
  · obtain rfl : c = c' := Except.error.inj hsame
    rw [ha, ha']
    exact ⟨rfl, fun hd => by cases hd⟩
  · cases hsame
  · cases hsame
  · rw [ha, ha']
    exact ⟨rfl, fun _ => Prod.mk.inj (Except.ok.inj hsame)⟩

/-- Settles O51: with the block in `CR_C`, `CRTSQRT` passes the same tests and writes the same roots and candidates. -/
theorem bdecExtendsCrtsqrt : Obligations.BdecExtendsCrtsqrt := by
  unfold Obligations.BdecExtendsCrtsqrt
  intro s t h ha
  obtain ⟨hf, u, hu, rfl⟩ := ruleOf_ok_of_exec_done h ha
  obtain ⟨hk, hw, -, rfl⟩ := bdecRule_ok hu
  exact ⟨_, exec_crtsqrt_done (s := s.setCrC s.bd.BD_BLK.toNat) hf hk hw, rfl, rfl⟩

end Sys2Proof.Machine
end

