-- ==== Sys2Proof/Proofs/Characters.lean ====
section
/-! PROOFS. Blocks as characters and as the strings they spell (R66, R171), and the cutting of a stream into chunks (R173,
R178). -/

namespace Sys2Proof.Machine

/-! ### Strings of bits -/

theorem bitsFrom_eq_map_range (v n : Nat) : bitsFrom v n = (List.range n).map fun j => v.testBit (n - 1 - j) := by
  induction n with
  | zero => rfl
  | succ n ih =>
    rw [bitsFrom, ih, List.range_succ_eq_map, List.map_cons, List.map_map]
    congr 1
    refine List.map_congr_left fun j hj => ?_
    rw [Function.comp_apply, Nat.add_sub_cancel, Nat.sub_sub, Nat.add_comm 1 j]

/-- A string is that of its value, at its own length. -/
theorem bitsFrom_intval (l : List Bool) : bitsFrom (intval l) l.length = l := by
  rw [← intval_inj (bitsFrom_length _ _), intval_bitsFrom, Nat.mod_eq_of_lt (intval_lt l)]

/-- The value of a string as a sum over its characters (R171). -/
theorem intval_eq_sum (l : List Bool) :
    intval l = ((List.range l.length).map fun j => if l[j]? = some true then 2 ^ (l.length - 1 - j) else 0).sum := by
  induction l with
  | nil => rfl
  | cons b l ih =>
    rw [intval_cons, ih, List.length_cons, List.range_succ_eq_map, List.map_cons, List.map_map, List.sum_cons]
    congr 1
    · cases b <;> simp
    · refine congrArg List.sum (List.map_congr_left fun j hj => ?_)
      simp only [Function.comp_apply, Nat.succ_eq_add_one, List.getElem?_cons_succ, Nat.add_sub_cancel, Nat.sub_sub,
        Nat.add_comm 1 j]

/-! ### Characters -/

/-- The bit of a character. -/
def charBit (ch : Char) : Bool := decide (ch = '1')

@[simp] theorem charBit_bitChar (b : Bool) : charBit (bitChar b) = b := by cases b <;> rfl

theorem bitChar_charBit {ch : Char} (h : isBitChar ch = true) : bitChar (charBit ch) = ch := by
  simp only [isBitChar, Bool.or_eq_true, beq_iff_eq] at h
  rcases h with rfl | rfl <;> rfl

theorem isBitChar_bitChar (b : Bool) : isBitChar (bitChar b) = true := by cases b <;> rfl

/-- The value of a chunk is that of its bits. -/
theorem blockval_eq_intval (ch : List Char) : blockval ch = intval (ch.map charBit) := by
  simp only [blockval, intval, List.foldl_map, charBit]
  congr
  funext acc c
  by_cases h : c = '1' <;> simp [h]

theorem chars_eq_map (c : Block) : chars c = (bitsFrom c.toNat 32).map bitChar := by
  rw [bitsFrom_eq_map_range, List.map_map]
  rfl

@[simp] theorem chars_length (c : Block) : (chars c).length = 32 := by
  rw [chars_eq_map, List.length_map, bitsFrom_length]

theorem chars_all_isBitChar (c : Block) : (chars c).all isBitChar = true := by
  rw [chars_eq_map, List.all_map, List.all_eq_true]
  exact fun b _ => isBitChar_bitChar b

@[simp] theorem blockval_chars (c : Block) : blockval (chars c) = c.toNat := by
  have hbits : ((bitsFrom c.toNat 32).map bitChar).map charBit = bitsFrom c.toNat 32 := by
    rw [List.map_map]
    exact (List.map_congr_left fun b _ => charBit_bitChar b).trans (List.map_id _)
  rw [blockval_eq_intval, chars_eq_map, hbits, intval_bitsFrom, Nat.mod_eq_of_lt c.isLt]

theorem blockval_lt {ch : List Char} (h : ch.length = 32) : blockval ch < 2 ^ 32 := by
  have hlt := intval_lt (ch.map charBit)
  rwa [← blockval_eq_intval, List.length_map, h] at hlt

theorem chars_blockval {ch : List Char} (hlen : ch.length = 32) (hall : ch.all isBitChar = true) :
    chars (BitVec.ofNat 32 (blockval ch)) = ch := by
  have hbits : bitsFrom (blockval ch) 32 = ch.map charBit := by
    have h := bitsFrom_intval (ch.map charBit)
    rwa [← blockval_eq_intval, List.length_map, hlen] at h
  rw [chars_eq_map, toNat_ofNat_of_lt (blockval_lt hlen), hbits, List.map_map]
  exact (List.map_congr_left fun c hc => bitChar_charBit (List.all_eq_true.mp hall c hc)).trans (List.map_id _)

/-- Settles O52: characters are bits, and a string of 32 bits is that of its value. -/
theorem charsBlockvalInverse : Obligations.CharsBlockvalInverse := by
  unfold Obligations.CharsBlockvalInverse
  refine ⟨fun c => ⟨chars_length c, chars_all_isBitChar c, blockval_chars c⟩, fun ch => chars_blockval, fun ch hlen => ?_⟩
  rw [blockval_eq_intval, intval_eq_sum, List.length_map, hlen]
  refine congrArg List.sum (List.map_congr_left fun j _ => ?_)
  simp [charBit]

/-! ### Chunks (R173) -/

@[simp] theorem chunks_length (k : Nat) (t : List Char) : (chunks k t).length = k := by
  induction k generalizing t with
  | zero => rfl
  | succ k ih => rw [chunks, List.length_cons, ih]

/-- Chunks read no further than the characters that they cover. -/
theorem chunks_append {k : Nat} {t : List Char} (tail : List Char) (h : 32 * k ≤ t.length) :
    chunks k (t ++ tail) = chunks k t := by
  induction k generalizing t with
  | zero => rfl
  | succ k ih =>
    have hlen : 32 ≤ t.length := by omega
    have hdrop : 32 * k ≤ (t.drop 32).length := by
      rw [List.length_drop]
      omega
    rw [chunks, chunks, List.take_append_of_le_length hlen, List.drop_append_of_le_length hlen, ih hdrop]

/-- A chunk has 32 characters, all of them of the stream. -/
theorem mem_chunks {k : Nat} {t ch : List Char} (h : 32 * k ≤ t.length) (hch : ch ∈ chunks k t) :
    ch.length = 32 ∧ ch ⊆ t := by
  induction k generalizing t with
  | zero => cases hch
  | succ k ih =>
    rw [chunks, List.mem_cons] at hch
    rcases hch with rfl | hch
    · exact ⟨by rw [List.length_take]; omega, List.take_subset _ _⟩
    · obtain ⟨hlen, hsub⟩ := ih (t := t.drop 32) (by rw [List.length_drop]; omega) hch
      exact ⟨hlen, fun c hc => List.drop_subset 32 t (hsub hc)⟩

theorem mem_cut {t ch : List Char} (hall : t.all isBitChar = true) (hch : ch ∈ cut t) :
    ch.length = 32 ∧ ch.all isBitChar = true := by
  obtain ⟨hlen, hsub⟩ := mem_chunks (Nat.mul_div_le t.length 32) hch
  exact ⟨hlen, List.all_eq_true.mpr fun c hc => List.all_eq_true.mp hall c (hsub hc)⟩

/-- A chunk in front is cut off first. -/
theorem cut_append {x t : List Char} (hx : x.length = 32) : cut (x ++ t) = x :: cut t := by
  have hdiv : (x ++ t).length / 32 = t.length / 32 + 1 := by
    rw [List.length_append, hx, Nat.add_comm, Nat.add_div_right _ (by norm_num)]
  rw [cut, hdiv, chunks, List.take_left' hx, List.drop_left' hx, cut]

/-- A stream made of blocks is cut into those blocks. -/
theorem cut_flatMap {α : Type} {f : α → List Char} (hf : ∀ a, (f a).length = 32) (B : List α) :
    cut (B.flatMap f) = B.map f := by
  induction B with
  | nil => simp [cut, chunks]
  | cons b B ih => rw [List.flatMap_cons, cut_append (hf b), ih, List.map_cons]

theorem length_flatMap_blocks {α : Type} {f : α → List Char} (hf : ∀ a, (f a).length = 32) (B : List α) :
    (B.flatMap f).length = 32 * B.length := by
  induction B with
  | nil => rfl
  | cons b B ih => rw [List.flatMap_cons, List.length_append, hf, ih, List.length_cons, Nat.mul_succ, Nat.add_comm]

theorem cut_append_tail {t tail : List Char} (h : t.length % 32 = 0) (htail : tail.length < 32) :
    cut (t ++ tail) = cut t := by
  have hdiv : (t ++ tail).length / 32 = t.length / 32 := by
    rw [List.length_append]
    omega
  rw [cut, hdiv, chunks_append tail (Nat.mul_div_le t.length 32), cut]

/-- Settles O54: the procedure reads the stream through its chunks alone. -/
theorem truncatedTailIgnored : Obligations.TruncatedTailIgnored := by
  unfold Obligations.TruncatedTailIgnored
  intro s T tail p q hT htail
  rw [streamDecrypt, cut_append_tail hT htail, streamDecrypt]

end Sys2Proof.Machine
end

