-- ==== Sys2Proof/Proofs/StreamEncrypt.lean ====
section
/-! PROOFS. What the host's requests do (R60, R88, R217), and stream encryption (R172). -/

namespace Sys2Proof.Machine

/-! ### Host procedures -/

section
variable {α β : Type} {s u : State} {i : Instr}

@[simp] theorem HostResult.bind_ok (a : α) (s : State) (f : α → State → HostResult β) :
    (HostResult.ok a s).bind f = f a s := rfl

@[simp] theorem HostResult.bind_abort (c : Completion) (s : State) (f : α → State → HostResult β) :
    (HostResult.abort c s).bind f = .abort c s := rfl

theorem hostIssue_eq (h : exec i s = .next u) : hostIssue i s = checkDone u.answer u := by
  rw [hostIssue, request_eq (t := .issue (encode i)) rfl ((doIssue_encode i s).trans h), HostResult.bind_ok]

theorem hostIssue_done (hf : ¬ s.faulted) (h : ruleOf i s = .ok u) : hostIssue i s = .ok () (finish u) :=
  hostIssue_eq (exec_done hf h)

theorem hostIssue_fault {c : FaultCode} (hf : ¬ s.faulted) (h : ruleOf i s = .error c) :
    hostIssue i s = .abort (.fault c) (faultEntry c (encode i) s) :=
  hostIssue_eq (exec_fault hf h)

theorem hostRdpl_eq {k v : Nat} (hk : k < 2 ^ s.par.W) (hlt : k < s.sv.PCOUNT) (hv : Memory.read s.PL k = some v) :
    hostRdpl k s = .ok v (s.answering (.value v)) := by
  have he : (Transaction.rdpl k).expressible s.par = true := by simp [Transaction.expressible, hk]
  rw [hostRdpl, request_eq he (u := s.answering (.value v)) (by rw [perform, doRdpl_below hlt hv]), HostResult.bind_ok]
  rfl

theorem ofNat_toNat_self {n : Nat} (b : BitVec n) : BitVec.ofNat n b.toNat = b := by
  rw [BitVec.ofNat_toNat, BitVec.setWidth_eq]

/-- A register that is held as a word reads as its value. -/
theorem readReg_of_word {r : RegName} {n : Nat} {b : BitVec n} (hn : r.width s.par = n) (hv : s.regValue r = b.toNat) :
    s.readReg r = b.toNat := by
  rw [State.readReg, hn, hv, bitPattern_natCast b.isLt]

end

/-! ### The loop of stream encryption -/

/-- The block of a byte under the modulus `n`, as characters (R150, R172). -/
def cipherChars (n : Nat) (b : Byte) : List Char := chars (BitVec.ofNat 32 (REncode b.toNat * REncode b.toNat % n))

@[simp] theorem cipherChars_length (n : Nat) (b : Byte) : (cipherChars n b).length = 32 := chars_length _

section
variable {s : State}

theorem hostWr_BE_BYTE (b : Byte) (hf : ¬ s.faulted) :
    ∃ u, hostWr .BE_BYTE b.toNat s = .ok .nothing u ∧ u.par = s.par ∧ u.ctl = s.ctl ∧
      u.be.BE_BYTE = b ∧ u.be.BE_N = s.be.BE_N :=
  ⟨_, hostWr_eq .BE_BYTE b.toNat hf b.isLt, rfl, rfl, ofNat_toNat_self b, rfl⟩

theorem hostIssue_benc (hf : ¬ s.faulted) (hn : s.be.BE_N ≠ 0) :
    ∃ u, hostIssue .benc s = .ok () u ∧ u.par = s.par ∧ u.ctl = s.ctl ∧ u.be.BE_N = s.be.BE_N ∧
      u.be.BE_BLK = BitVec.ofNat 32 (REncode s.be.BE_BYTE.toNat * REncode s.be.BE_BYTE.toNat % s.be.BE_N) :=
  ⟨_, hostIssue_done hf (bencRule_done hn (REncode_sq_mod_lt _ _)), rfl, rfl, rfl, rfl⟩

theorem hostRd_BE_BLK (s : State) : hostRd .BE_BLK s = .ok s.be.BE_BLK.toNat (s.answering (.value s.be.BE_BLK.toNat)) := by
  rw [hostRd_eq, readReg_of_word (b := s.be.BE_BLK) rfl rfl]

/-- One round: the byte is written, `BENC` completes, and the block read is that of the byte. -/
theorem encryptBytes_cons (b : Byte) (bs : List Byte) (hf : ¬ s.faulted) (hn : s.be.BE_N ≠ 0) :
    ∃ u, u.par = s.par ∧ u.ctl = s.ctl ∧ u.be.BE_N = s.be.BE_N ∧
      encryptBytes (b :: bs) s =
        (encryptBytes bs u).bind fun out v => .ok (cipherChars s.be.BE_N b ++ out) v := by
  obtain ⟨s₁, hwr, hpar₁, hctl₁, hbyte, hn₁⟩ := hostWr_BE_BYTE b hf
  have hf₁ : ¬ s₁.faulted := by rwa [State.faulted, hctl₁]
  obtain ⟨s₂, hissue, hpar₂, hctl₂, hn₂, hblk⟩ := hostIssue_benc hf₁ (hn₁ ▸ hn)
  refine ⟨s₂.answering (.value s₂.be.BE_BLK.toNat), hpar₂.trans hpar₁, hctl₂.trans hctl₁, hn₂.trans hn₁, ?_⟩
  rw [encryptBytes, hwr, HostResult.bind_ok, hissue, HostResult.bind_ok, hostRd_BE_BLK, HostResult.bind_ok,
    ofNat_toNat_self, hblk, hbyte, hn₁, cipherChars]

/-- The loop gives one block for each byte. -/
theorem encryptBytes_ok {B : List Byte} (hf : ¬ s.faulted) (hn : s.be.BE_N ≠ 0) :
    ∃ u, encryptBytes B s = .ok (B.flatMap (cipherChars s.be.BE_N)) u ∧ u.par = s.par ∧ u.ctl = s.ctl := by
  induction B generalizing s with
  | nil => exact ⟨s, rfl, rfl, rfl⟩
  | cons b bs ih =>
    obtain ⟨u, hpar, hctl, hn', hround⟩ := encryptBytes_cons b bs hf hn
    have hf' : ¬ u.faulted := by rwa [State.faulted, hctl]
    obtain ⟨v, hv, hpar', hctl'⟩ := ih hf' (hn' ▸ hn)
    refine ⟨v, ?_, hpar'.trans hpar, hctl'.trans hctl⟩
    rw [hround, hv, HostResult.bind_ok, hn', List.flatMap_cons]

/-- Under modulus 0 the first byte stops at `MOD_ZERO` (R188). -/
theorem encryptBytes_zero (b : Byte) (bs : List Byte) (hf : ¬ s.faulted) (hn : s.be.BE_N = 0) :
    ∃ u, encryptBytes (b :: bs) s = .abort (.fault .MOD_ZERO) u := by
  obtain ⟨s₁, hwr, -, hctl₁, -, hn₁⟩ := hostWr_BE_BYTE b hf
  have hf₁ : ¬ s₁.faulted := by rwa [State.faulted, hctl₁]
  refine ⟨faultEntry .MOD_ZERO (encode .benc) s₁, ?_⟩
  rw [encryptBytes, hwr, HostResult.bind_ok, hostIssue_fault (i := .benc) hf₁ (bencRule_zero (hn₁.trans hn)),
    HostResult.bind_abort]

/-! ### `stream_encrypt` -/

theorem streamEncrypt_eq (B : List Byte) {n : Nat} (hf : ¬ s.faulted) (hn : n < 2 ^ s.par.W) :
    streamEncrypt B n s = encryptBytes B ((s.writeReg .BE_N n).answering .nothing) := by
  rw [streamEncrypt, hostWr_eq .BE_N n hf hn, HostResult.bind_ok]

/-- Stream encryption under a nonzero modulus completes and leaves the parameters and the control registers. -/
theorem streamEncrypt_ok (B : List Byte) {n : Nat} (hf : ¬ s.faulted) (hn : n < 2 ^ s.par.W) (h0 : n ≠ 0) :
    ∃ u, streamEncrypt B n s = .ok (B.flatMap (cipherChars n)) u ∧ u.par = s.par ∧ u.ctl = s.ctl := by
  rw [streamEncrypt_eq B hf hn]
  exact encryptBytes_ok (s := (s.writeReg .BE_N n).answering .nothing) hf h0

end

/-- Settles O53, by what the loop does under a nonzero modulus, under modulus 0 and on no byte. -/
theorem streamEncryptResult : Obligations.StreamEncryptResult := by
  unfold Obligations.StreamEncryptResult
  refine fun s B n hf hn => ⟨fun h0 => ?_, fun h0 hB => ?_, fun hB => ?_⟩
  · obtain ⟨u, hu, -, hctl⟩ := streamEncrypt_ok B hf hn h0
    exact ⟨u, hu, length_flatMap_blocks (cipherChars_length n) B, by rwa [State.faulted, hctl]⟩
  · obtain ⟨b, bs, rfl⟩ := List.exists_cons_of_ne_nil hB
    rw [streamEncrypt_eq _ hf hn]
    exact encryptBytes_zero (s := (s.writeReg .BE_N n).answering .nothing) b bs hf h0
  · subst hB
    exact ⟨_, streamEncrypt_eq [] hf hn⟩

end Sys2Proof.Machine
end

