-- ==== Sys2Proof/Proofs/StreamDecrypt.lean ====
section
/-! PROOFS. Stream decryption (R174, R176), and what comes back of a stream encrypted (R177). -/

namespace Sys2Proof.Machine

/-! ### The loop of stream decryption -/

/-- The byte that `BDEC` gives for a block of value `c` outside strict mode (R160). -/
def plainByte (key : KeyRegs) (placeholder : Byte) (c : Nat) : Byte :=
  (select4 (crt4 key.K_P key.K_Q key.K_A key.K_B (rootp c key.K_P) (rootp c key.K_Q))).byte placeholder

/-- A core on which `BDEC` completes on every block: clear, not in strict mode, under a key that passes its tests. -/
structure State.Decrypts (s : State) : Prop where
  clear : ¬ s.faulted
  lenient : s.ctl.CTRL = 0#1
  congruent : s.keyCongruent
  width : s.key.K_P * s.key.K_Q < 2 ^ s.par.W

section
variable {s t : State}

theorem State.Decrypts.congr (h : s.Decrypts) (hpar : t.par = s.par) (hctl : t.ctl = s.ctl) (hkey : t.key = s.key) :
    t.Decrypts := by
  obtain ⟨clear, lenient, congruent, width⟩ := h
  constructor <;> simpa only [State.faulted, State.keyCongruent, hpar, hctl, hkey]

theorem State.Decrypts.not_strict (h : s.Decrypts) : ¬ s.strict := by
  rw [State.strict, h.lenient]
  decide

theorem hostWr_BD_BLK {c : Nat} (hf : ¬ s.faulted) (hc : c < 2 ^ 32) :
    ∃ u, hostWr .BD_BLK c s = .ok .nothing u ∧ u.par = s.par ∧ u.ctl = s.ctl ∧ u.key = s.key ∧ u.bd.BD_BLK.toNat = c :=
  ⟨_, hostWr_eq .BD_BLK c hf hc, rfl, rfl, rfl, toNat_ofNat_of_lt hc⟩

theorem hostIssue_bdec (h : s.Decrypts) :
    ∃ u, hostIssue .bdec s = .ok () u ∧ u.par = s.par ∧ u.ctl = s.ctl ∧ u.key = s.key ∧
      u.bd.BD_BYTE = plainByte s.key s.ctl.PHOLD s.bd.BD_BLK.toNat :=
  ⟨_, hostIssue_done h.clear (bdecRule_done h.congruent h.width fun hs => absurd hs h.not_strict),
    by simp [State.withCandidates], by simp [State.withCandidates], by simp [State.withCandidates],
    by simp [plainByte, State.candidates, State.rootR, State.rootS]⟩

theorem hostRd_BD_BYTE (s : State) :
    hostRd .BD_BYTE s = .ok s.bd.BD_BYTE.toNat (s.answering (.value s.bd.BD_BYTE.toNat)) := by
  rw [hostRd_eq, readReg_of_word (b := s.bd.BD_BYTE) rfl rfl]

/-- One round: the block is written, `BDEC` completes, and the byte read is that of the block. -/
theorem decryptChunks_cons {ch : List Char} (rest : List (List Char)) (h : s.Decrypts) (hlen : ch.length = 32)
    (hall : ch.all isBitChar = true) :
    ∃ u, u.par = s.par ∧ u.ctl = s.ctl ∧ u.key = s.key ∧
      decryptChunks (ch :: rest) s =
        (decryptChunks rest u).bind fun out v => .ok (plainByte s.key s.ctl.PHOLD (blockval ch) :: out) v := by
  obtain ⟨s₁, hwr, hpar₁, hctl₁, hkey₁, hblk⟩ := hostWr_BD_BLK h.clear (blockval_lt hlen)
  obtain ⟨s₂, hissue, hpar₂, hctl₂, hkey₂, hbyte⟩ := hostIssue_bdec (h.congr hpar₁ hctl₁ hkey₁)
  refine ⟨s₂.answering (.value s₂.bd.BD_BYTE.toNat), hpar₂.trans hpar₁, hctl₂.trans hctl₁, hkey₂.trans hkey₁, ?_⟩
  rw [decryptChunks, if_neg (by simp [hall]), hwr, HostResult.bind_ok, hissue, HostResult.bind_ok, hostRd_BD_BYTE,
    HostResult.bind_ok, ofNat_toNat_self, hbyte, hblk, hctl₁, hkey₁]

/-- The loop gives one byte for each chunk. -/
theorem decryptChunks_ok {cs : List (List Char)} (h : s.Decrypts)
    (hcs : ∀ ch ∈ cs, ch.length = 32 ∧ ch.all isBitChar = true) :
    ∃ u, decryptChunks cs s = .ok (cs.map fun ch => plainByte s.key s.ctl.PHOLD (blockval ch)) u := by
  induction cs generalizing s with
  | nil => exact ⟨s, rfl⟩
  | cons ch rest ih =>
    obtain ⟨⟨hlen, hall⟩, hrest⟩ := List.forall_mem_cons.mp hcs
    obtain ⟨u, hpar, hctl, hkey, hround⟩ := decryptChunks_cons rest h hlen hall
    obtain ⟨v, hv⟩ := ih (h.congr hpar hctl hkey) hrest
    exact ⟨v, by rw [hround, hv, HostResult.bind_ok, hkey, hctl, List.map_cons]⟩

/-! ### `stream_decrypt` -/

/-- The state after the host has written the two primes (R174). -/
def State.withPrimes (s : State) (p q : Nat) : State :=
  (((s.writeReg .K_P p).answering .nothing).writeReg .K_Q q).answering .nothing

@[simp] theorem State.withPrimes_par (s : State) (p q : Nat) : (s.withPrimes p q).par = s.par := rfl
@[simp] theorem State.withPrimes_ctl (s : State) (p q : Nat) : (s.withPrimes p q).ctl = s.ctl := rfl
@[simp] theorem State.withPrimes_bd (s : State) (p q : Nat) : (s.withPrimes p q).bd = s.bd := rfl
@[simp] theorem State.withPrimes_cr (s : State) (p q : Nat) : (s.withPrimes p q).cr = s.cr := rfl
@[simp] theorem State.withPrimes_key (s : State) (p q : Nat) :
    (s.withPrimes p q).key = { s.key with K_P := p, K_Q := q } := rfl

section
variable {p q : Nat}

theorem streamDecrypt_eq (T : List Char) (hf : ¬ s.faulted) (hp : p < 2 ^ s.par.W) (hq : q < 2 ^ s.par.W) :
    streamDecrypt T p q s = (hostIssue .keyset (s.withPrimes p q)).bind fun _ u => decryptChunks (cut T) u := by
  have hf' : ¬ ((s.writeReg .K_P p).answering .nothing).faulted := hf
  rw [streamDecrypt, hostWr_eq .K_P p hf hp, HostResult.bind_ok, hostWr_eq .K_Q q hf' hq, HostResult.bind_ok,
    State.withPrimes]

/-- A key that `KEYSET` rejects ends the procedure before any block (R176). -/
theorem streamDecrypt_fault {c : FaultCode} (T : List Char) (hf : ¬ s.faulted) (hp : p < 2 ^ s.par.W)
    (hq : q < 2 ^ s.par.W) (hc : keysetRule (s.withPrimes p q) = .error c) :
    ∃ u, streamDecrypt T p q s = .abort (.fault c) u ∧ u.bd = s.bd ∧ u.cr = s.cr := by
  refine ⟨faultEntry c (encode .keyset) (s.withPrimes p q), ?_, by rw [faultEntry_bd, State.withPrimes_bd],
    by rw [faultEntry_cr, State.withPrimes_cr]⟩
  rw [streamDecrypt_eq T hf hp hq, hostIssue_fault (s := s.withPrimes p q) (i := .keyset) hf hc, HostResult.bind_abort]

theorem hostIssue_keyset (hf : ¬ s.faulted) (hp : p % 4 = 3) (hq : q % 4 = 3) (hg : Nat.gcd p q = 1) :
    ∃ u, hostIssue .keyset (s.withPrimes p q) = .ok () u ∧ u.par = s.par ∧ u.ctl = s.ctl ∧
      u.key = ⟨p, q, (xgcd p q).x, (xgcd p q).y⟩ :=
  ⟨_, hostIssue_done (s := s.withPrimes p q) (i := .keyset) hf
    (keysetRule_done (s := s.withPrimes p q) ⟨hp, hq⟩ ((xgcd_g p q).trans hg)), by simp, by simp, by simp⟩

/-- Under a valid key whose modulus fits, outside strict mode, every chunk gives its byte. -/
theorem streamDecrypt_ok {T : List Char} (hf : ¬ s.faulted) (hp : p % 4 = 3) (hq : q % 4 = 3) (hg : Nat.gcd p q = 1)
    (hw : p * q < 2 ^ s.par.W) (hctrl : s.ctl.CTRL = 0#1) (hT : T.all isBitChar = true) :
    ∃ u, streamDecrypt T p q s =
      .ok ((cut T).map fun ch => plainByte ⟨p, q, (xgcd p q).x, (xgcd p q).y⟩ s.ctl.PHOLD (blockval ch)) u := by
  have hple : p ≤ p * q := Nat.le_mul_of_pos_right p (one_le_of_mod_four_eq_three hq)
  have hqle : q ≤ p * q := Nat.le_mul_of_pos_left q (one_le_of_mod_four_eq_three hp)
  obtain ⟨u, hu, hpar, hctl, hkey⟩ := hostIssue_keyset hf hp hq hg
  have hdec : u.Decrypts := by
    constructor <;> simp only [State.faulted, State.keyCongruent, hpar, hctl, hkey]
    exacts [hf, hctrl, ⟨hp, hq⟩, hw]
  obtain ⟨v, hv⟩ := decryptChunks_ok hdec fun ch hch => mem_cut hT hch
  rw [hkey, hctl] at hv
  exact ⟨v, by rw [streamDecrypt_eq T hf (hple.trans_lt hw) (hqle.trans_lt hw), hu, HostResult.bind_ok, hv]⟩

end
end

/-- Settles O55: the two faults are those of `KEYSET`, and else there is one byte for each chunk. -/
theorem streamDecryptLength : Obligations.StreamDecryptLength := by
  unfold Obligations.StreamDecryptLength
  intro s T p q hf hp hq
  refine ⟨fun hpq => ?_, fun hp4 hq4 hg => ?_, fun hp4 hq4 hg hw hctrl hT => ?_⟩
  · exact streamDecrypt_fault T hf hp hq (keysetRule_congruence (s := s.withPrimes p q) (not_and_or.mpr hpq))
  · exact streamDecrypt_fault T hf hp hq (keysetRule_notCoprime (s := s.withPrimes p q) ⟨hp4, hq4⟩ hg)
  · obtain ⟨u, hu⟩ := streamDecrypt_ok hf hp4 hq4 hg hw hctrl hT
    exact ⟨_, u, hu, by rw [List.length_map, cut, chunks_length]⟩

/-! ### The round trip (R177) -/

theorem blockval_cipherChars (n : Nat) (b : Byte) :
    blockval (cipherChars n b) = REncode b.toNat * REncode b.toNat % n := by
  rw [cipherChars, blockval_chars, toNat_ofNat_of_lt (REncode_sq_mod_lt b n)]

theorem flatMap_cipherChars_all (n : Nat) (B : List Byte) : (B.flatMap (cipherChars n)).all isBitChar = true := by
  rw [List.all_flatMap, List.all_eq_true]
  exact fun b _ => chars_all_isBitChar _

theorem Selection.byte_of_not_hit {sel : Selection} (placeholder : Byte) (h : ∀ k x, sel ≠ .hit k x) :
    sel.byte placeholder = placeholder := by
  cases sel with
  | hit k x => exact absurd rfl (h k x)
  | range _ _ => rfl
  | miss => rfl

/-- The byte of a hit is the half decoded, which the selection has tested to be one. -/
theorem byte_toNat_of_hit {v : Candidates} {k h : Nat} (placeholder : Byte) (he : select4 v = .hit k h) :
    ((select4 v).byte placeholder).toNat = h := by
  obtain ⟨-, hle⟩ := (select4_eq_hit_iff v k h).mp he
  rw [he]
  exact toNat_ofNat_of_lt (Nat.lt_succ_of_le hle)

/-- A byte comes back if the first candidate equal to its encoding is the first that decodes. -/
theorem byte_eq_of_first {v : Candidates} {b : Byte} (placeholder : Byte) (hb : b ≠ 0#8)
    (hmem : REncode b.toNat ∈ v.toList)
    (hfirst : ∀ k : Nat, v.toList[k]? = some (REncode b.toNat) →
      (∀ j : Nat, j < k → v.toList[j]? ≠ some (REncode b.toNat)) →
      ∀ j x : Nat, j < k → v.toList[j]? = some x → RDecode x = none) :
    (select4 v).byte placeholder = b := by
  have hex : ∃ k, v.toList[k]? = some (REncode b.toNat) := List.mem_iff_getElem?.mp hmem
  have hpos : 1 ≤ b.toNat := Nat.one_le_iff_ne_zero.mpr fun h0 => hb (BitVec.eq_of_toNat_eq h0)
  have hdec : FirstDecoded v.toList (Nat.find hex) b.toNat :=
    ⟨⟨_, Nat.find_spec hex, RDecode_REncode hpos⟩,
      hfirst (Nat.find hex) (Nat.find_spec hex) fun j hj => Nat.find_min hex hj⟩
  have hhit : select4 v = .hit (Nat.find hex) b.toNat :=
    (select4_eq_hit_iff _ _ _).mpr ⟨hdec, Nat.le_of_lt_succ b.isLt⟩
  exact BitVec.eq_of_toNat_eq (byte_toNat_of_hit placeholder hhit)

/-- Two distinct primes that are 3 mod 4, with the coefficients that `KEYSET` loads, are a proper key (R134). -/
theorem properKey_xgcd {p q : Nat} (hp : IsPrime p) (hq : IsPrime q) (hne : p ≠ q) (hp4 : p % 4 = 3) (hq4 : q % 4 = 3) :
    ProperKey p q (xgcd p q).x (xgcd p q).y :=
  ⟨hp, hq, hne, hp4, hq4, xgcd_bezout_of_coprime (gcd_eq_one_of_isPrime hp hq hne)⟩

/-- Settles O56: the chunks are the blocks of the bytes, and the encoding of a byte is among the candidates of its block. -/
theorem streamRoundTrip : Obligations.StreamRoundTrip := by
  unfold Obligations.StreamRoundTrip
  intro s B p q hf hctrl hp hq hne hp4 hq4 hw
  have hkey := properKey_xgcd hp hq hne hp4 hq4
  obtain ⟨u, hu, hpar, hctl⟩ := streamEncrypt_ok B hf hw hkey.modulus_pos.ne'
  have hf' : ¬ u.faulted := by rwa [State.faulted, hctl]
  obtain ⟨t, ht⟩ := streamDecrypt_ok hf' hp4 hq4 hkey.coprime (hpar ▸ hw) (hctl ▸ hctrl)
    (flatMap_cipherChars_all (p * q) B)
  rw [cut_flatMap (cipherChars_length (p * q)), List.map_map, hctl] at ht
  refine ⟨_, u, _, t, hu, ht, by rw [List.length_map], ?_⟩
  rintro i b b' hb hb' _ _ _ rfl rfl rfl
  rw [List.getElem?_map, hb, Option.map_some, Option.some.injEq, Function.comp_apply, blockval_cipherChars] at hb'
  subst hb'
  refine ⟨fun k h he => byte_toNat_of_hit _ he, Selection.byte_of_not_hit _, fun hb0 hm hfirst => ?_⟩
  exact byte_eq_of_first _ hb0 ((mem_candidates_iff hkey (Nat.mod_mod _ _)).mpr hm.le) hfirst

end Sys2Proof.Machine
end

