-- ==== Sys2Proof/Proofs/EncryptCall.lean ====
section
/-! PROOFS. The call `encrypt` (R175): the range, the sieve, two entries of the list, and the stream under their product. -/

namespace Sys2Proof.Machine

/-- What `encrypt` does after the sieve has completed (R175). -/
def encryptListed (choose : Nat → Nat × Nat) (B : List Byte) (s : State) : HostResult Encrypted :=
  (hostRd .PCOUNT s).bind fun cnt s₄ =>
  if cnt < 2 then .poolTooSmall s₄ else
  (hostRdpl (choose cnt).1 s₄).bind fun p s₅ =>
  (hostRdpl (choose cnt).2 s₅).bind fun q s₆ =>
  (streamEncrypt B (p * q) s₆).bind fun t s₇ =>
  .ok ⟨t, p, q, p * q⟩ s₇

/-- The state after the host has written the range. -/
def State.withRange (s : State) (mn mx : Nat) : State :=
  (((s.writeReg .SV_MIN mn).answering .nothing).writeReg .SV_MAX mx).answering .nothing

/-- The core holds the list `L`, with its count. -/
structure State.Lists (s : State) (L : List Nat) : Prop where
  count : s.sv.PCOUNT = L.length
  entries : s.PL = Memory.load L
  fits : L.length < 2 ^ s.par.W

section
variable {s : State} {k : Bool} {mn mx : Nat} {choose : Nat → Nat × Nat} {B : List Byte} {L : List Nat}

theorem encryptCall_eq (hf : ¬ s.faulted) (hmn : mn < 2 ^ s.par.W) (hmx : mx < 2 ^ s.par.W) :
    encryptCall k mn mx choose B s =
      (hostIssue (.sieve k) (s.withRange mn mx)).bind fun _ u => encryptListed choose B u := by
  have hf' : ¬ ((s.writeReg .SV_MIN mn).answering .nothing).faulted := hf
  rw [encryptCall, hostWr_eq .SV_MIN mn hf hmn, HostResult.bind_ok, hostWr_eq .SV_MAX mx hf' hmx, HostResult.bind_ok,
    State.withRange]
  rfl

@[simp] theorem State.withRange_par (s : State) (mn mx : Nat) : (s.withRange mn mx).par = s.par := rfl
@[simp] theorem State.withRange_ctl (s : State) (mn mx : Nat) : (s.withRange mn mx).ctl = s.ctl := rfl
@[simp] theorem State.withRange_be (s : State) (mn mx : Nat) : (s.withRange mn mx).be = s.be := rfl

theorem sieveRule_withRange (hmax : mx < s.par.S) (hk : k = true → 2 ≤ (primes34 mn mx).length) :
    sieveRule k (s.withRange mn mx) = .ok ((s.withRange mn mx).setPrimes (primes34 mn mx) (sieve mx)) :=
  sieveRule_done (s := s.withRange mn mx) hmax hk

theorem hostIssue_sieve (hp : s.par.wf = true) (hf : ¬ s.faulted) (hmax : mx < s.par.S)
    (hk : k = true → 2 ≤ (primes34 mn mx).length) :
    ∃ u, hostIssue (.sieve k) (s.withRange mn mx) = .ok () u ∧ u.par = s.par ∧ u.ctl = s.ctl ∧ u.be = s.be ∧
      u.Lists (primes34 mn mx) := by
  refine ⟨_, hostIssue_done (s := s.withRange mn mx) (i := .sieve k) hf (sieveRule_withRange hmax hk), ?_, ?_, ?_,
    ?_, ?_, ?_⟩
  · rw [finish_par, State.setPrimes_par, State.withRange_par]
  · rw [finish_ctl, State.setPrimes_ctl, State.withRange_ctl]
  · rw [finish_be, State.setPrimes_be, State.withRange_be]
  · rw [finish_sv, State.setPrimes_sv]
  · rw [finish_PL, State.setPrimes_PL]
  · rw [finish_par, State.setPrimes_par, State.withRange_par]
    exact length_primes34_lt hp hmax

theorem hostIssue_sieve_pool (hf : ¬ s.faulted) (hmax : mx < s.par.S) (h : (primes34 mn mx).length < 2) :
    ∃ u, hostIssue (.sieve true) (s.withRange mn mx) = .abort (.fault .GEN_POOL) u ∧ u.be = s.be :=
  ⟨_, hostIssue_fault (s := s.withRange mn mx) (i := .sieve true) hf
    (sieveRule_pool (s := s.withRange mn mx) hmax h), by rw [faultEntry_be, State.withRange_be]⟩

theorem hostRd_PCOUNT (h : s.Lists L) : hostRd .PCOUNT s = .ok L.length (s.answering (.value L.length)) := by
  have hread : s.readReg .PCOUNT = L.length := by
    rw [State.readReg, State.regValue, h.count]
    exact bitPattern_natCast h.fits
  rw [hostRd_eq, hread]

theorem State.Lists.answering (h : s.Lists L) (a : Answer) : (s.answering a).Lists L := ⟨h.count, h.entries, h.fits⟩

theorem hostRdpl_of_lists (h : s.Lists L) {i : Nat} (hi : i < L.length) :
    hostRdpl i s = .ok L[i] (s.answering (.value L[i])) := by
  refine hostRdpl_eq (hi.trans h.fits) (h.count ▸ hi) ?_
  rw [h.entries, Memory.read_load, List.getElem?_eq_getElem hi]

/-- A list of fewer than two primes is the host's own failure. -/
theorem encryptListed_few (h : s.Lists L) (hfew : L.length < 2) :
    encryptListed choose B s = .poolTooSmall (s.answering (.value L.length)) := by
  rw [encryptListed, hostRd_PCOUNT h, HostResult.bind_ok, if_pos hfew]

/-- With two entries the stream is encrypted under the product of the two chosen. -/
theorem encryptListed_ok (hf : ¬ s.faulted) (h : s.Lists L) (hlen : 2 ≤ L.length) (h1 : (choose L.length).1 < L.length)
    (h2 : (choose L.length).2 < L.length)
    (hw : L[(choose L.length).1] * L[(choose L.length).2] < 2 ^ s.par.W)
    (h0 : L[(choose L.length).1] * L[(choose L.length).2] ≠ 0) :
    ∃ u, encryptListed choose B s =
        .ok ⟨B.flatMap (cipherChars (L[(choose L.length).1] * L[(choose L.length).2])), L[(choose L.length).1],
          L[(choose L.length).2], L[(choose L.length).1] * L[(choose L.length).2]⟩ u ∧ u.ctl = s.ctl := by
  have ha := h.answering (.value L.length)
  obtain ⟨u, hu, -, hctl⟩ := streamEncrypt_ok (s := ((s.answering (.value L.length)).answering
    (.value L[(choose L.length).1])).answering (.value L[(choose L.length).2])) B hf hw h0
  refine ⟨u, ?_, hctl⟩
  rw [encryptListed, hostRd_PCOUNT h, HostResult.bind_ok, if_neg (Nat.not_lt.mpr hlen), hostRdpl_of_lists ha h1,
    HostResult.bind_ok, hostRdpl_of_lists (ha.answering _) h2, HostResult.bind_ok, hu, HostResult.bind_ok]

end

/-- Distinct indices choose distinct entries of the list. -/
theorem primes34_getElem_ne {mn mx i j : Nat} (hi : i < (primes34 mn mx).length) (hj : j < (primes34 mn mx).length)
    (hne : i ≠ j) : (primes34 mn mx)[i] ≠ (primes34 mn mx)[j] := by
  have hnodup : (primes34 mn mx).Nodup := (primes34_pairwise mn mx).imp Nat.ne_of_lt
  exact fun he => hne ((List.Nodup.getElem_inj_iff hnodup).mp he)

theorem Qualifies.pos {mn mx i : Nat} (h : Qualifies mn mx i) : 0 < i := one_le_of_mod_four_eq_three h.2.2.2

/-- Settles O57: after the sieve the list holds the qualifying primes, and the two chosen are distinct ones. -/
theorem encryptCallKeys : Obligations.EncryptCallKeys := by
  unfold Obligations.EncryptCallKeys
  intro s k mn mx choose B hp hf hmn hmax hsq hchoose
  obtain ⟨-, -, -, haddr⟩ := Params.wf_iff.mp hp
  have hmx : mx < 2 ^ s.par.W := hmax.trans_le haddr
  rw [← two_le_length_primes34_iff]
  refine ⟨fun hlen => ?_, fun hlen => ⟨fun hk => ?_, fun hk => ?_⟩⟩
  · obtain ⟨h1, h2, hne⟩ := hchoose _ hlen
    have hq1 : Qualifies mn mx _ := mem_primes34.mp (List.getElem_mem h1)
    have hq2 : Qualifies mn mx _ := mem_primes34.mp (List.getElem_mem h2)
    obtain ⟨u, hu, hpar, hctl, -, hlists⟩ := hostIssue_sieve hp hf hmax fun _ => hlen
    have hf' : ¬ u.faulted := by rwa [State.faulted, hctl]
    have hw := (Nat.mul_le_mul hq1.2.1 hq2.2.1).trans_lt hsq
    obtain ⟨v, hv, hctl'⟩ := encryptListed_ok (B := B) hf' hlists hlen h1 h2 (hpar ▸ hw) (Nat.mul_pos hq1.pos hq2.pos).ne'
    have hf'' : ¬ v.faulted := by rwa [State.faulted, hctl']
    have hcall : encryptCall k mn mx choose B s = encryptListed choose B u := by
      rw [encryptCall_eq hf hmn hmx, hu, HostResult.bind_ok]
    exact ⟨_, v, hcall.trans hv, hq1, hq2, primes34_getElem_ne h1 h2 hne, rfl, rfl,
      length_flatMap_blocks (cipherChars_length _) B, hf''⟩
  · subst hk
    obtain ⟨u, hu, hbe⟩ := hostIssue_sieve_pool hf hmax (Nat.not_le.mp hlen)
    exact ⟨u, by rw [encryptCall_eq hf hmn hmx, hu, HostResult.bind_abort], hbe⟩
  · subst hk
    obtain ⟨u, hu, -, hctl, hbe, hlists⟩ :=
      hostIssue_sieve (k := false) (mn := mn) hp hf hmax (fun h => absurd h Bool.false_ne_true)
    refine ⟨u.answering (.value (primes34 mn mx).length), ?_, hbe, ?_⟩
    · rw [encryptCall_eq hf hmn hmx, hu, HostResult.bind_ok, encryptListed_few hlists (Nat.not_le.mp hlen)]
    · rwa [State.faulted, State.answering_ctl, hctl]

end Sys2Proof.Machine
end
